-- ==== Sys2Proof/Word.lean ====
section
/-! DEFINITION. The two word types of the block: a byte (00_scope.md R8) and the 16-bit word of every
command, result and event (30_encoding.md R90). -/

namespace Sys2Proof

/-- A byte of storage or of a data register: 8 bits (R8, R21). -/
abbrev Byte := BitVec 8

/-- A command, result or event word: 16 bits, bit 0 the least significant (R8, R90). -/
abbrev Word := BitVec 16

end Sys2Proof
end

