-- ==== Sys2Proof/Config.lean ====
section
/-! DEFINITION. The parameters of the block (00_scope.md R7) and the free values: what the spec leaves open is an opaque
constant without a body, so that no proof can rest on a value of it. The parameters that are numbers are plain data
(`Params`), held by State and written by no step. -/

namespace Sys2Proof

/-- The numeric parameters of R7. A FIFO size is given by its exponent, so that every value of the type is a power of two
between 2 and 2^15, as R7 (D19) demands: `N_RX = 2 ^ (rxExp + 1)`, `N_TX = 2 ^ (txExp + 1)`. -/
structure Params where
  /-- `W_RX - 1`, the width in bits of an index of RX less one. -/
  rxExp : Fin 15
  /-- `W_TX - 1`. -/
  txExp : Fin 15
  /-- `F_CLK`, the clock frequency handed to INIT. -/
  fClk  : Nat
  /-- `BAUD`, the baud rate handed to INIT; INIT is refused for 0 (R141). -/
  baud  : Nat
deriving DecidableEq, Repr

namespace Config

/-- DESIGN CHOICE (log entry 1): the parameters `State.reset` is built with, those of 95_test_vectors.md section 0. The spec
gives no default (91_not_in_source.md N3); `State.powerOn` takes any. -/
def resetParams : Params := { rxExp := 1, txExp := 1, fClk := 1000000, baud := 9600 }

/-- `MODW - 1`: the width of the modulation field is an OPEN parameter of at least 1 (R7, U5). -/
opaque modWidthMinusOne : Nat

/-- `MODW`, the width in bits of `brmod`, at least 1 (R7). -/
def modWidth : Nat := modWidthMinusOne + 1

/-- `MOD_LOOKUP`: the OPEN table from the fractional remainder, given as `(F_CLK mod BAUD, BAUD)`, to a value below
`2^MODW` (R171, U5). It depends on its two arguments alone; nothing else is known of it. -/
opaque modLookup : Nat → Nat → BitVec modWidth

/-- Free value (log entry 3): `txifg` after power-on, `draw {0, 1}` (R38, U2). -/
opaque txifgAtReset : Bool

/-- Free value (log entry 4): which of FRAME (`true`) and OVERRUN (`false`) the n-th draw latches when a received byte has
both line errors, `draw {FRAME, OVERRUN}` (R208, U3). -/
opaque drawFrame : Nat → Bool

/-- `BS_CODE`: the byte the line editor treats as Backspace, `0x08` unless the model is told otherwise (R7, R194, D28). -/
def bsCode : Byte := 0x08

/-- Free value (log entry 9): what cell `i` of the line editor's array holds at editor init, which no rule says (R180). -/
opaque lineCellAtInit : Nat → Byte

/-- Free value (log entry 13): whether the main program feeds to the line editor the byte of a GET result that carries an error
code, for the GET at a given `mpc` and its result word. The source does not say (R181, 91_not_in_source.md N23). -/
opaque feedsDamaged : Nat → Word → Bool

end Config

end Sys2Proof
end

