-- ==== Sys2Proof/Machine/State.lean ====
section
/-! DEFINITION. The architectural state (10_state.md R20), its reset value (R38), and the reasons a step can stop. `none` in an
`Option` field is the spec's own 'no value' (R23): what such a field holds at reset by R38, and not a reset value left out. -/

namespace Sys2Proof.Machine

/-- The error kinds of R99. `noData` is only ever returned, never latched (R25, 90_conflicts.md C4). -/
inductive ErrorKind where
  /-- No error. -/
  | none
  /-- `NoData`: a read from an empty receive FIFO (R201). -/
  | noData
  /-- `BufferOverflow`: the receive FIFO was full (R201). -/
  | bufOvf
  /-- `OverrunError`, reported by the line (R201). -/
  | overrun
  /-- `FrameError`, reported by the line (R201). -/
  | frame
deriving DecidableEq, Repr

/-- `mphase`: which phase of a two-phase command comes next (R33, R140, 90_conflicts.md C11). -/
inductive Phase where
  /-- `mphase = 0`: PUT's attempt, GET's pop. -/
  | zero
  /-- `mphase = 1`: PUT's kick, GET's attach-and-clear. -/
  | one
deriving DecidableEq, Repr

/-- A FIFO's storage: the slots that hold a value, as (slot, byte) pairs with slots strictly rising (R21, R60). A slot not
listed holds no value (R23). -/
abbrev Memory := List Host.Cell

/-- A FIFO instance (R21): storage and two binary indices (R3), each no value until a reset (R23). -/
structure Fifo where
  /-- `f.buf`. -/
  buf  : Memory
  /-- `f.head`: the slot the producer wrote last. -/
  head : Option Nat
  /-- `f.tail`: the slot the consumer read last. -/
  tail : Option Nat
deriving DecidableEq, Repr

/-- The whole state (R20), and with it the parameters of a run: the numbers of R7, the program (R33) and the schedule
(R104), which the spec keeps beside the state and the one-argument step needs inside it. -/
structure State where
  /-- `N_RX`, `N_TX`, `F_CLK`, `BAUD` (R7). No step writes it. -/
  params    : Params
  /-- The receive FIFO (R21). -/
  rx        : Fifo
  /-- The transmit FIFO (R21). -/
  tx        : Fifo
  /-- The sticky last-error register (R25). -/
  lastError : ErrorKind
  /-- The hardware receive register (R26). -/
  rxbuf     : Option Byte
  /-- The frame-error status of the byte in `rxbuf` (R26). -/
  rxfe      : Option Bool
  /-- The overrun status of the byte in `rxbuf` (R26). -/
  rxoe      : Option Bool
  /-- The receive source's pending flag (R28). -/
  rxifg     : Bool
  /-- The receive source's enable (R28). -/
  rxie      : Bool
  /-- The hardware transmit register (R27). -/
  txbuf     : Option Byte
  /-- The transmit source's pending flag (R29). -/
  txifg     : Bool
  /-- The transmit source's enable (R29). -/
  txie      : Bool
  /-- The baud generator's divisor (R31). -/
  brdiv     : Option (BitVec 16)
  /-- The baud generator's modulation field, MODW bits (R31). -/
  brmod     : Option (BitVec Config.modWidth)
  /-- The global interrupt enable (R30). -/
  gie       : Bool
  /-- The captured values of `gie`, innermost first (R32). -/
  atomStack : List Bool
  /-- The index in `prog` of the current command (R33). -/
  mpc       : Nat
  /-- The phase of the current command (R33). -/
  mphase    : Phase
  /-- The byte GET popped in its first phase (R33). -/
  mtmp      : Option Byte
  /-- The result words returned so far, oldest first (R33). -/
  mres      : List Word
  /-- The bytes written to `txbuf` so far, oldest first (R34). -/
  wireOut   : List Byte
  /-- The main agent's program (R33). No step writes it (R74). -/
  prog      : List Word
  /-- The event words of the steps still to come (R104). -/
  sched     : List Word
  /-- The model's own field: how many draws of R208 have been taken (log entry 4). -/
  draws     : Nat
deriving DecidableEq, Repr

/-- A FIFO after power-on: nothing holds a value (R38). -/
def Fifo.noValue : Fifo := { buf := [], head := none, tail := none }

/-- The state after power-on for any parameters and either value of `txifg`, which R38 leaves a draw. No program and no
schedule are loaded (log entry 2). -/
def State.powerOn (p : Params) (txifg : Bool) : State where
  params    := p
  rx        := Fifo.noValue
  tx        := Fifo.noValue
  lastError := .none
  rxbuf     := none
  rxfe      := none
  rxoe      := none
  rxifg     := false
  rxie      := false
  txbuf     := none
  txifg     := txifg
  txie      := false
  brdiv     := none
  brmod     := none
  gie       := false
  atomStack := []
  mpc       := 0
  mphase    := .zero
  mtmp      := none
  mres      := []
  wireOut   := []
  prog      := []
  sched     := []
  draws     := 0

/-- The machine right after reset (R38, R240): `txifg` is the free value `Config.txifgAtReset` (log entry 3), the
parameters are those log entry 1 names. -/
def State.reset : State := State.powerOn Config.resetParams Config.txifgAtReset

/-- What stops the machine with a fault. -/
inductive Fault where
  /-- `fault(UninitialisedRead)` (R23, U1). Raised by every read of an index, a slot, `rxbuf`, `rxfe`, `rxoe` or `mtmp` that holds no
  value: the FIFO functions, the receive handler, GET's second phase. Safe: the spec's own treatment (10_state.md R23, 92_eei_decisions.md
  D20): such a read 'does not return zero and does not return a draw'. -/
  | uninitialisedRead
deriving DecidableEq, Repr

/-- What has no meaning in the spec. -/
inductive Refusal where
  /-- An instruction with no meaning yet. Raised by exec's arms alone. Safe. -/
  | notModelled (mnemonic : String)
  /-- `refuse(ReservedEncoding)` (R101, D6). Raised where a word of the program or the schedule that matches no row is reached. Safe. -/
  | reservedEncoding
  /-- `refuse(RoleViolation)` (R120, D21). Raised by format F instructions on the handler's side of a live FIFO. Safe. -/
  | roleViolation
  /-- `refuse(InitWithHandlersLive)` (R141, D17). Raised by INIT while a handler could run. Safe. -/
  | initWithHandlersLive
  /-- `refuse(BaudOutOfRange)` (R141, R170, D18). Raised by INIT where `BAUD = 0` or the quotient exceeds 16 bits. Safe. -/
  | baudOutOfRange
  /-- `refuse(UnbalancedAtomicSection)` (R163 to R166, D22). Raised by an exit with no section open. Safe. -/
  | unbalancedAtomicSection
  /-- A format E word met in the program, which may not hold one (R94, R96). Raised by EV.MSTEP. Safe (log entry 7). -/
  | eventWordInProgram
  /-- A schedule word whose agent is not enabled: no legal next step (R104, U14). Raised by the five events. Safe. -/
  | agentNotEnabled
  /-- A format F, M or A word in the schedule, which holds format E words only (R104). Raised by the fetch of a step. Safe. -/
  | commandWordInSchedule
  /-- The schedule names no further step: a finite schedule simply stops (R251). Raised by the fetch of a step. Safe. -/
  | scheduleEnded
deriving DecidableEq, Repr

end Sys2Proof.Machine
end

