-- ==== Sys2Proof/Syntax.lean ====
section
/-! DEFINITION. The instructions: one constructor per row of the opcode map (30_encoding.md R95), operands as R97 gives
them, and the four formats of R90. -/

namespace Sys2Proof

/-- The FIFO instance a format F instruction names: `sel` 0 is RX, 1 is TX (R91). -/
inductive Sel where
  | rx
  | tx
deriving DecidableEq, Repr

/-- The 22 rows of R95. Operands are typed, so that every term is a row with admissible operands (R97). -/
inductive Instr where
  /-- `F.RESET sel` (R121). -/
  | fReset (sel : Sel)
  /-- `F.TRYPUSH sel, imm8` (R122). -/
  | fTrypush (sel : Sel) (imm8 : Byte)
  /-- `F.TRYPOP sel` (R123). -/
  | fTrypop (sel : Sel)
  /-- `F.PEEK sel` (R124). -/
  | fPeek (sel : Sel)
  /-- `F.AVAIL sel` (R125). -/
  | fAvail (sel : Sel)
  /-- `F.FLUSH sel` (R126). -/
  | fFlush (sel : Sel)
  /-- `EV.MSTEP`: the main agent takes one step (R140). -/
  | evMstep
  /-- `EV.TXREADY`: the transmitter can take another byte (R215). -/
  | evTxready
  /-- `EV.RXISR`: the receive interrupt handler runs (R206). -/
  | evRxisr
  /-- `EV.TXISR`: the transmit interrupt handler runs (R207). -/
  | evTxisr
  /-- `EV.RXARRIVE imm8, fe, oe`: a byte arrives with its frame-error and overrun bits (R214). -/
  | evRxarrive (imm8 : Byte) (fe oe : Bool)
  /-- `INIT` (R141). -/
  | init
  /-- `PUT imm8` (R142). -/
  | put (imm8 : Byte)
  /-- `GET` (R144). -/
  | get
  /-- `PEEK` (R145). -/
  | peek
  /-- `AVAIL` (R146). -/
  | avail
  /-- `FLUSH` (R147). -/
  | flush
  /-- `ATOM.ENTER.ATOMIC` (R161). -/
  | atomEnterAtomic
  /-- `ATOM.ENTER.NONATOMIC` (R162). -/
  | atomEnterNonatomic
  /-- `ATOM.EXIT.RESTORE` (R163). -/
  | atomExitRestore
  /-- `ATOM.EXIT.ON` (R164). -/
  | atomExitOn
  /-- `ATOM.EXIT.OFF` (R165). -/
  | atomExitOff
deriving DecidableEq, Repr

/-- The four formats of R90. -/
inductive Format where
  /-- FIFO controller instruction (R91). -/
  | f
  /-- Transport command (R92). -/
  | m
  /-- Atomic-section instruction (R93). -/
  | a
  /-- Event word, in schedules only (R94). -/
  | e
deriving DecidableEq, Repr

/-- The format of each row (R95, column 'format'). -/
def Instr.format : Instr → Format
  | .fReset _ => .f
  | .fTrypush _ _ => .f
  | .fTrypop _ => .f
  | .fPeek _ => .f
  | .fAvail _ => .f
  | .fFlush _ => .f
  | .evMstep => .e
  | .evTxready => .e
  | .evRxisr => .e
  | .evTxisr => .e
  | .evRxarrive _ _ _ => .e
  | .init => .m
  | .put _ => .m
  | .get => .m
  | .peek => .m
  | .avail => .m
  | .flush => .m
  | .atomEnterAtomic => .a
  | .atomEnterNonatomic => .a
  | .atomExitRestore => .a
  | .atomExitOn => .a
  | .atomExitOff => .a

/-- A format E word names a step of an agent and stands in schedules only (R94). -/
def Instr.isEvent (i : Instr) : Bool := i.format == .e

/-- A format F, M or A word is a command of the main agent's program (R96). -/
def Instr.isCommand (i : Instr) : Bool := i.format != .e

/-- The mnemonic of each row, as `opcode_table.json` spells it (R95, D7). -/
def Instr.mnemonic : Instr → String
  | .fReset _ => "F.RESET"
  | .fTrypush _ _ => "F.TRYPUSH"
  | .fTrypop _ => "F.TRYPOP"
  | .fPeek _ => "F.PEEK"
  | .fAvail _ => "F.AVAIL"
  | .fFlush _ => "F.FLUSH"
  | .evMstep => "EV.MSTEP"
  | .evTxready => "EV.TXREADY"
  | .evRxisr => "EV.RXISR"
  | .evTxisr => "EV.TXISR"
  | .evRxarrive _ _ _ => "EV.RXARRIVE"
  | .init => "INIT"
  | .put _ => "PUT"
  | .get => "GET"
  | .peek => "PEEK"
  | .avail => "AVAIL"
  | .flush => "FLUSH"
  | .atomEnterAtomic => "ATOM.ENTER.ATOMIC"
  | .atomEnterNonatomic => "ATOM.ENTER.NONATOMIC"
  | .atomExitRestore => "ATOM.EXIT.RESTORE"
  | .atomExitOn => "ATOM.EXIT.ON"
  | .atomExitOff => "ATOM.EXIT.OFF"

/-- `PUTS b1, ..., bn` is `PUT b1; ...; PUT bn`, in that order, nothing for the empty list (R105, R143, D29). -/
def puts (bs : List Byte) : List Instr := bs.map .put

end Sys2Proof
end

