-- ==== Sys2Proof/Machine/Ops.lean ====
section
/-! DEFINITION. The named operations over storage and registers: slots (20_memory.md R60, R61), the six FIFO functions
(40_ring_buffer.md R121 to R126), the main agent's results and progress (R98, R33), and taking an interrupt (R205). -/

namespace Sys2Proof

/-- `N_f`: a power of two (R7, R21). -/
def Params.size (p : Params) : Sel → Nat
  | .rx => 2 ^ (p.rxExp.val + 1)
  | .tx => 2 ^ (p.txExp.val + 1)

end Sys2Proof

namespace Sys2Proof.Machine

/-! ## Storage -/

/-- The canonical form: slots strictly rising. No entry can equal what an unlisted slot holds, which is no value (R23). -/
abbrev Memory.wf (m : Memory) : Prop := m.Pairwise fun x y => x.1 < y.1

/-- `MemRead(f.buf + i, 1)` (R9): the byte in slot `i`, or no value (R23). -/
def Memory.read : Memory → Nat → Option Byte
  | [], _ => none
  | (a, b) :: m, i => if a = i then some b else Memory.read m i

/-- `MemWrite(f.buf + i, 1, v)` (R9). Writing gives a value (R23); the order of slots is kept. -/
def Memory.write : Memory → Nat → Byte → Memory
  | [], i, v => [(i, v)]
  | (a, b) :: m, i, v =>
    if i < a then (i, v) :: (a, b) :: m
    else if i = a then (i, v) :: m
    else (a, b) :: Memory.write m i v

/-! ## Indices -/

/-- `(index + 1) & mask` with `mask = n - 1`, the only address computation of the block (R61). -/
def nextIndex (n i : Nat) : Nat := (i + 1) &&& (n - 1)

/-- `(N + head - tail) & mask`, formed in natural numbers (R125). -/
def countBetween (n head tail : Nat) : Nat := (n + head - tail) &&& (n - 1)

/-! ## The FIFO functions, on an instance with `n` slots -/

/-- `reset(f)` (R121): both indices 0, storage untouched (D25). -/
def Fifo.reset (f : Fifo) : Fifo := { f with head := some 0, tail := some 0 }

/-- `try_push(f, b)` (R122): whether the byte was taken, and the instance after. The byte is stored before `head` is published
(R68). An index that holds no value is `fault(UninitialisedRead)` (R120, R23). -/
def Fifo.tryPush (n : Nat) (f : Fifo) (b : Byte) : Except Fault (Bool × Fifo) :=
  match f.head, f.tail with
  | some h, some t =>
    if nextIndex n h = t then .ok (false, f)
    else .ok (true, { f with buf := f.buf.write (nextIndex n h) b, head := some (nextIndex n h) })
  | _, _ => .error .uninitialisedRead

/-- `try_pop(f)` (R123): the byte or nothing, and the instance after. `tail` is advanced, then the slot at the new tail is
read (R68). An index or a slot that holds no value is `fault(UninitialisedRead)` (R120, R23). -/
def Fifo.tryPop (n : Nat) (f : Fifo) : Except Fault (Option Byte × Fifo) :=
  match f.head, f.tail with
  | some h, some t =>
    if h = t then .ok (none, f)
    else
      match f.buf.read (nextIndex n t) with
      | some b => .ok (some b, { f with tail := some (nextIndex n t) })
      | none => .error .uninitialisedRead
  | _, _ => .error .uninitialisedRead

/-- `peek(f)` (R124): the byte a pop would return; nothing is written. It reads what a pop reads, and faults where a pop does
(R23). -/
def Fifo.peek (n : Nat) (f : Fifo) : Except Fault (Option Byte) :=
  match f.head, f.tail with
  | some h, some t =>
    if h = t then .ok none
    else
      match f.buf.read (nextIndex n t) with
      | some b => .ok (some b)
      | none => .error .uninitialisedRead
  | _, _ => .error .uninitialisedRead

/-- `available(f)` (R125): the number of bytes held. An index that holds no value is `fault(UninitialisedRead)` (R120, R23). -/
def Fifo.available (n : Nat) (f : Fifo) : Except Fault Nat :=
  match f.head, f.tail with
  | some h, some t => .ok (countBetween n h t)
  | _, _ => .error .uninitialisedRead

/-- `flush(f)` (R126): `tail <- head`; only `head` is read, and faults where it holds no value (R120, R23). -/
def Fifo.flush (f : Fifo) : Except Fault Fifo :=
  match f.head with
  | some h => .ok { f with tail := some h }
  | none => .error .uninitialisedRead

/-! ## The instances within the state -/

/-- The instance `sel` names (R91). -/
def State.fifo (s : State) : Sel → Fifo
  | .rx => s.rx
  | .tx => s.tx

/-- The state with another value of the instance `sel` names. -/
def State.setFifo (s : State) (sel : Sel) (f : Fifo) : State :=
  match sel with
  | .rx => { s with rx := f }
  | .tx => { s with tx := f }

/-! ## The main agent's results and progress -/

/-- `result(w)`: append `w` to the result trace (R9, R98). -/
def State.result (s : State) (w : Word) : State := { s with mres := s.mres ++ [w] }

/-- `mpc <- mpc + 1`: the main agent goes on to its next command (R9, R33). -/
def State.advance (s : State) : State := { s with mpc := s.mpc + 1 }

/-- The end of a step whose reads may have found no value. -/
def finish (r : Except Fault State) : Host.Outcome State Fault Refusal :=
  match r with
  | .ok s => .next s
  | .error e => .fault e

/-! ## Taking an interrupt -/

/-- Entry of a handler, its body and its return as one step (R205, R210): entry masks interrupts (`gie <- 0`), the body runs to
completion, the return puts the mask back as it was. The block's registers save nothing else: what the processor saves
is the platform's (U19). -/
def takeInterrupt (body : State → Except Fault State) (s : State) : Host.Outcome State Fault Refusal :=
  match body { s with gie := false } with
  | .ok t => .next { t with gie := s.gie }
  | .error e => .fault e

end Sys2Proof.Machine
end

