-- ==== Sys2Proof/Machine/Operands.lean ====
section
/-! DEFINITION. The forms of what a command returns: result words (30_encoding.md R98) and error codes (R99). The operands
themselves are `sel` and `imm8`, used as they stand (R97). -/

namespace Sys2Proof.Machine

/-- `code` of R99: one-hot in 4 bits, zero for no error. -/
def ErrorKind.code : ErrorKind → BitVec 4
  | .none => 0b0000
  | .noData => 0b0001
  | .bufOvf => 0b0010
  | .overrun => 0b0100
  | .frame => 0b1000

/-- `zext_16(v)` of a byte (R9). -/
def zext16 (b : Byte) : Word := b.setWidth 16

/-- `(code << 8) | byte`: the data-and-status word (R98). -/
def statusWord (e : ErrorKind) (b : Byte) : Word := e.code.setWidth 16 <<< 8 ||| b.setWidth 16

/-- `0x0100`: NO_DATA with a zero data byte (R98, D26). -/
def noDataWord : Word := statusWord .noData 0

/-- What F.TRYPUSH returns: `0x0001` for true, `0x0000` for false (R98). -/
def boolWord (ok : Bool) : Word := if ok then 0x0001 else 0x0000

/-- What F.TRYPOP and F.PEEK return: the byte, or NO_DATA (R98). -/
def byteWord : Option Byte → Word
  | some b => zext16 b
  | none => noDataWord

/-- What GET and PEEK return: the byte with the error code attached, or NO_DATA (R98). -/
def attachedWord (e : ErrorKind) : Option Byte → Word
  | some b => statusWord e b
  | none => noDataWord

/-- What F.AVAIL and AVAIL return: the count as a 16-bit unsigned number (R98). -/
def countWord (k : Nat) : Word := BitVec.ofNat 16 k

end Sys2Proof.Machine
end

