-- ==== Sys2Proof/Machine/Flags.lean ====
section
/-! DEFINITION. The flags (10_state.md R37): when a handler is enabled (60_exceptions.md R203), who may issue a FIFO instruction
(40_ring_buffer.md R120), when INIT is admitted (R141), the kick of PUT (R142), and the latching of errors (R208, R209). -/

namespace Sys2Proof.Machine

/-! ## Enabling of the agents -/

/-- RXISR is enabled iff `gie = 1` and `rxie = 1` and `rxifg = 1` (R203). -/
def State.rxisrEnabled (s : State) : Bool := s.gie && s.rxie && s.rxifg

/-- TXISR is enabled iff `gie = 1` and `txie = 1` and `txifg = 1` (R203). -/
def State.txisrEnabled (s : State) : Bool := s.gie && s.txie && s.txifg

/-- TXREADY is enabled iff `txifg = 0` (R215). -/
def State.txreadyEnabled (s : State) : Bool := !s.txifg

/-- EV.MSTEP is enabled iff `mpc` is less than the length of `prog` (R104). -/
def State.mainEnabled (s : State) : Bool := decide (s.mpc < s.prog.length)

/-! ## Admission of the FIFO instructions -/

/-- The six FIFO instructions, for the admission test of R120. -/
inductive RingOp where
  /-- F.RESET. -/
  | reset
  /-- F.TRYPUSH. -/
  | push
  /-- F.TRYPOP. -/
  | pop
  /-- F.PEEK. -/
  | peek
  /-- F.AVAIL. -/
  | avail
  /-- F.FLUSH. -/
  | flush
deriving DecidableEq, Repr

/-- Case 1 of R120: the instruction only reads. -/
def RingOp.readsOnly : RingOp → Bool
  | .peek => true
  | .avail => true
  | .reset => false
  | .push => false
  | .pop => false
  | .flush => false

/-- Case 2 of R120: within the main agent's role, consumer of RX and producer of TX (R24). -/
def RingOp.mainRole : RingOp → Sel → Bool
  | .pop, .rx => true
  | .flush, .rx => true
  | .push, .tx => true
  | .pop, .tx => false
  | .flush, .tx => false
  | .push, .rx => false
  | .reset, _ => false
  | .peek, _ => false
  | .avail, _ => false

/-- The enable of the handler that is the other party on an instance: `rxie` for RX, `txie` for TX (R120). -/
def State.handlerEnable (s : State) : Sel → Bool
  | .rx => s.rxie
  | .tx => s.txie

/-- R120: a format F instruction is admitted iff at least one of its four cases holds. -/
def State.admits (s : State) (op : RingOp) (sel : Sel) : Bool :=
  op.readsOnly || op.mainRole sel || !s.gie || !s.handlerEnable sel

/-- No handler could run: `gie = 0`, or both enables are 0 (R141). -/
def State.handlersQuiet (s : State) : Bool := !s.gie || (!s.rxie && !s.txie)

/-- `BAUD > 0` and the quotient fits 16 bits (R141, R170). -/
def State.baudInRange (s : State) : Bool :=
  decide (0 < s.params.baud) && decide (s.params.fClk / s.params.baud < 2 ^ 16)

/-! ## Flag updates -/

/-- The kick of PUT's phase 1 (R142): if `txie` was 0, set `txifg` and `txie`. -/
def State.kick (s : State) : State :=
  if s.txie then s else { s with txifg := true, txie := true }

/-- What RXISR latches after a push that succeeded, from the status sampled with the byte (R206, R208). Both bits set is
`draw {FRAME, OVERRUN}`: a fresh free value (log entry 4). A clean byte leaves `last_error` as it is (R209). -/
def State.latchLineError (s : State) (fe oe : Bool) : State :=
  match fe, oe with
  | true, true =>
    { s with lastError := if Config.drawFrame s.draws then .frame else .overrun, draws := s.draws + 1 }
  | true, false => { s with lastError := .frame }
  | false, true => { s with lastError := .overrun }
  | false, false => s

end Sys2Proof.Machine
end

