-- ==== Sys2Proof/Machine/Atomic.lean ====
section
/-! DEFINITION. The scoped atomic section (42_atomic_section.md R160 to R165). The capture, the forcing and the restoring of
`gie` are each one atomic step. -/

namespace Sys2Proof.Machine

/-- Entry of a section: capture `gie`, then force it (R160 to R162). -/
def State.enterSection (s : State) (forced : Bool) : State :=
  { s with atomStack := s.gie :: s.atomStack, gie := forced }.advance

/-- Exit of the innermost section: the captured bit is dropped from the stack and `gie` becomes what the policy makes of it
(R160, R163 to R165). -/
def exitSection (policy : Bool → Bool) (s : State) : Host.Outcome State Fault Refusal :=
  match s.atomStack with
  | captured :: rest => .next { s with atomStack := rest, gie := policy captured }.advance
  | [] => .refused .unbalancedAtomicSection

/-- ATOM.ENTER.ATOMIC (R161). -/
def execAtomEnterAtomic (s : State) : Host.Outcome State Fault Refusal := .next (s.enterSection false)

/-- ATOM.ENTER.NONATOMIC (R162). -/
def execAtomEnterNonatomic (s : State) : Host.Outcome State Fault Refusal := .next (s.enterSection true)

/-- ATOM.EXIT.RESTORE (R163): `gie` is put back to the captured value. -/
def execAtomExitRestore (s : State) : Host.Outcome State Fault Refusal := exitSection (fun captured => captured) s

/-- ATOM.EXIT.ON (R164): interrupts are left enabled. -/
def execAtomExitOn (s : State) : Host.Outcome State Fault Refusal := exitSection (fun _ => true) s

/-- ATOM.EXIT.OFF (R165): interrupts are left disabled. -/
def execAtomExitOff (s : State) : Host.Outcome State Fault Refusal := exitSection (fun _ => false) s

end Sys2Proof.Machine
end

