-- ==== Sys2Proof/WellFormed.lean ====
section
/-! DEFINITION. Well-formed programs and schedules, over decoded instructions. A single instruction needs no check: its
operands are typed (R97), and a word with a must-be-zero bit set decodes to nothing (R101). What can be ill formed is a
program (R96, R166) or a schedule (R104). -/

namespace Sys2Proof

/-- The word opens a scoped atomic section (R161, R162). -/
def Instr.opensSection (i : Instr) : Bool := i == .atomEnterAtomic || i == .atomEnterNonatomic

/-- The word closes a scoped atomic section (R163 to R165). -/
def Instr.closesSection (i : Instr) : Bool :=
  i == .atomExitRestore || i == .atomExitOn || i == .atomExitOff

/-- Reading a program from the start with `depth` sections open: every exit closes a section that is still open, and none is open at
the end (R166). -/
def sectionsBalanced : Nat → List Instr → Bool
  | depth, [] => depth == 0
  | depth, i :: rest =>
    if i.opensSection then sectionsBalanced (depth + 1) rest
    else if i.closesSection then
      match depth with
      | 0 => false
      | d + 1 => sectionsBalanced d rest
    else sectionsBalanced depth rest

/-- A program holds format F, M and A words only, and its sections are balanced and properly nested (R96, R166). -/
def programWellFormed (prog : List Instr) : Bool :=
  prog.all Instr.isCommand && sectionsBalanced 0 prog

/-- A schedule is a list of format E words (R104). That each names an enabled agent is a property of the run. -/
def scheduleWellFormed (sched : List Instr) : Bool := sched.all Instr.isEvent

end Sys2Proof
end

