-- ==== Sys2Proof/Decode.lean ====
section
/-! DEFINITION. The opcode map (30_encoding.md R95), the decoder (R96, total: a word that matches no row is reserved, R101),
the encoder written from the formats of R91 to R94, words as bytes (R62) and the assembler's spelling, written and read (R103). -/

namespace Sys2Proof

/-! ## Fields of a word -/

/-- `sel`, bit 11 (R91). -/
def selOf (w : Word) : Sel := if w.getLsbD 11 then .tx else .rx

/-- `imm8`, bits 7:0, used as it stands (R97). -/
def imm8Of (w : Word) : Byte := w.setWidth 8

/-- `fe`, bit 8 of an RXARRIVE word (R94). -/
def feOf (w : Word) : Bool := w.getLsbD 8

/-- `oe`, bit 9 of an RXARRIVE word (R94). -/
def oeOf (w : Word) : Bool := w.getLsbD 9

/-! ## The opcode map -/

/-- One row of R95: a word `w` spells the row iff `w & mask = pat`. -/
structure Row where
  /-- The row's mnemonic. -/
  mnemonic : String
  /-- The column `match`. -/
  pat : Word
  /-- The column `mask`. -/
  mask : Word
  /-- The instruction a matching word stands for: the row's operation on the word's fields. -/
  build : Word → Instr

/-- The word spells the row (R95). -/
def Row.spells (r : Row) (w : Word) : Bool := w &&& r.mask == r.pat

/-- The rows of format F (R91). -/
def rowsF : List Row :=
  [ ⟨"F.RESET",   0x1000, 0xF7FF, fun w => .fReset (selOf w)⟩,
    ⟨"F.TRYPUSH", 0x2000, 0xF700, fun w => .fTrypush (selOf w) (imm8Of w)⟩,
    ⟨"F.TRYPOP",  0x3000, 0xF7FF, fun w => .fTrypop (selOf w)⟩,
    ⟨"F.PEEK",    0x4000, 0xF7FF, fun w => .fPeek (selOf w)⟩,
    ⟨"F.AVAIL",   0x5000, 0xF7FF, fun w => .fAvail (selOf w)⟩,
    ⟨"F.FLUSH",   0x6000, 0xF7FF, fun w => .fFlush (selOf w)⟩ ]

/-- The rows of format E (R94). -/
def rowsE : List Row :=
  [ ⟨"EV.MSTEP",    0x7000, 0xFFFF, fun _ => .evMstep⟩,
    ⟨"EV.TXREADY",  0x7100, 0xFFFF, fun _ => .evTxready⟩,
    ⟨"EV.RXISR",    0x7200, 0xFFFF, fun _ => .evRxisr⟩,
    ⟨"EV.TXISR",    0x7300, 0xFFFF, fun _ => .evTxisr⟩,
    ⟨"EV.RXARRIVE", 0x7800, 0xFC00, fun w => .evRxarrive (imm8Of w) (feOf w) (oeOf w)⟩ ]

/-- The rows of format M (R92). -/
def rowsM : List Row :=
  [ ⟨"INIT",  0x8000, 0xFFFF, fun _ => .init⟩,
    ⟨"PUT",   0x9000, 0xFF00, fun w => .put (imm8Of w)⟩,
    ⟨"GET",   0xA000, 0xFFFF, fun _ => .get⟩,
    ⟨"PEEK",  0xB000, 0xFFFF, fun _ => .peek⟩,
    ⟨"AVAIL", 0xC000, 0xFFFF, fun _ => .avail⟩,
    ⟨"FLUSH", 0xD000, 0xFFFF, fun _ => .flush⟩ ]

/-- The rows of format A (R93). -/
def rowsA : List Row :=
  [ ⟨"ATOM.ENTER.ATOMIC",    0xE000, 0xFFFF, fun _ => .atomEnterAtomic⟩,
    ⟨"ATOM.ENTER.NONATOMIC", 0xE001, 0xFFFF, fun _ => .atomEnterNonatomic⟩,
    ⟨"ATOM.EXIT.RESTORE",    0xF000, 0xFFFF, fun _ => .atomExitRestore⟩,
    ⟨"ATOM.EXIT.ON",         0xF001, 0xFFFF, fun _ => .atomExitOn⟩,
    ⟨"ATOM.EXIT.OFF",        0xF002, 0xFFFF, fun _ => .atomExitOff⟩ ]

/-- The complete map, 22 rows in the order of R95. -/
def opcodeMap : List Row := rowsF ++ rowsE ++ rowsM ++ rowsA

/-- R96: find the row the word spells; `none` is a reserved encoding (R101). -/
def decodeWord (w : Word) : Option Instr :=
  (opcodeMap.find? fun r => r.spells w).map fun r => r.build w

/-! ## The encoder -/

/-- `sel << 11` (R91). -/
def selBits : Sel → Word
  | .rx => 0
  | .tx => 0x0800

/-- `fe << 8` (R94). -/
def feBits (fe : Bool) : Word := if fe then 0x0100 else 0

/-- `oe << 9` (R94). -/
def oeBits (oe : Bool) : Word := if oe then 0x0200 else 0

/-- The word of an instruction, from the encodings each instruction's rule gives (R91 to R94, and the rules named). -/
def encode : Instr → Word
  | .fReset sel => 0x1000 ||| selBits sel
  | .fTrypush sel b => 0x2000 ||| selBits sel ||| b.setWidth 16
  | .fTrypop sel => 0x3000 ||| selBits sel
  | .fPeek sel => 0x4000 ||| selBits sel
  | .fAvail sel => 0x5000 ||| selBits sel
  | .fFlush sel => 0x6000 ||| selBits sel
  | .evMstep => 0x7000
  | .evTxready => 0x7100
  | .evRxisr => 0x7200
  | .evTxisr => 0x7300
  | .evRxarrive b fe oe => 0x7800 ||| oeBits oe ||| feBits fe ||| b.setWidth 16
  | .init => 0x8000
  | .put b => 0x9000 ||| b.setWidth 16
  | .get => 0xA000
  | .peek => 0xB000
  | .avail => 0xC000
  | .flush => 0xD000
  | .atomEnterAtomic => 0xE000
  | .atomEnterNonatomic => 0xE001
  | .atomExitRestore => 0xF000
  | .atomExitOn => 0xF001
  | .atomExitOff => 0xF002

/-! ## Words as bytes -/

/-- A word serialised by a host: least significant byte first (R62, D23). -/
def wordBytes (w : Word) : List Byte := [w.setWidth 8, (w >>> 8).setWidth 8]

/-- The word two serialised bytes stand for (R62, D23). -/
def wordOfBytes (lo hi : Byte) : Word := hi.setWidth 16 <<< 8 ||| lo.setWidth 16

/-- The decoder on bytes: the instruction and the bytes after it, or nothing for a reserved word or a lone byte. -/
def decodeBytes : List Byte → Option (Instr × List Byte)
  | lo :: hi :: rest => (decodeWord (wordOfBytes lo hi)).map fun i => (i, rest)
  | _ => none

/-- The instruction the decoder reads from `nbits` bits numbered as the opcode table numbers them; the bits above are 0. -/
def decodeTableWord (nbits w : Nat) : Option Instr :=
  (decodeBytes (wordBytes (BitVec.ofNat 16 (w % 2 ^ nbits)))).map fun p => p.1

/-! ## Programs and schedules as words -/

/-- Every word of a list decoded, or nothing if one is reserved (R96). -/
def decodeAll : List Word → Option (List Instr)
  | [] => some []
  | w :: ws =>
    match decodeWord w, decodeAll ws with
    | some i, some is => some (i :: is)
    | _, _ => none

/-- `prog` is well formed: its words decode, none is a format E word, and its sections nest (R96, R166). -/
def progWordsWellFormed (prog : List Word) : Bool :=
  match decodeAll prog with
  | some is => programWellFormed is
  | none => false

/-- A schedule is a list of format E words (R104). -/
def schedWordsWellFormed (sched : List Word) : Bool :=
  match decodeAll sched with
  | some is => scheduleWellFormed is
  | none => false

/-! ## Assembler spelling -/

/-- One hexadecimal digit. -/
def hexDigit (n : Nat) : String := ("0123456789ABCDEF".toList.drop n).take 1 |> String.ofList

/-- A byte as a number of the assembler, `0x41` (R103). -/
def asmByte (b : Byte) : String := "0x" ++ hexDigit (b.toNat / 16) ++ hexDigit (b.toNat % 16)

/-- `RX` or `TX` (R103). -/
def asmSel : Sel → String
  | .rx => "RX"
  | .tx => "TX"

/-- The assembler's spelling of an instruction's operands, with a leading blank where there are any (R103). -/
def asmOperands : Instr → String
  | .fReset sel => " " ++ asmSel sel
  | .fTrypush sel b => " " ++ asmSel sel ++ ", " ++ asmByte b
  | .fTrypop sel => " " ++ asmSel sel
  | .fPeek sel => " " ++ asmSel sel
  | .fAvail sel => " " ++ asmSel sel
  | .fFlush sel => " " ++ asmSel sel
  | .evMstep => ""
  | .evTxready => ""
  | .evRxisr => ""
  | .evTxisr => ""
  | .evRxarrive b fe oe =>
    " " ++ asmByte b ++ (if fe then ", FE" else "") ++ (if oe then ", OE" else "")
  | .init => ""
  | .put b => " " ++ asmByte b
  | .get => ""
  | .peek => ""
  | .avail => ""
  | .flush => ""
  | .atomEnterAtomic => ""
  | .atomEnterNonatomic => ""
  | .atomExitRestore => ""
  | .atomExitOn => ""
  | .atomExitOff => ""

/-- The assembler's spelling of an instruction: its mnemonic and its operands separated by commas (R103, D7). -/
def asm (i : Instr) : String := i.mnemonic ++ asmOperands i

/-! ## Assembler: reading a line -/

/-- The value of one digit, in any of the bases. -/
def digitValue (c : Char) : Option Nat :=
  if '0' ≤ c ∧ c ≤ '9' then some (c.toNat - 48)
  else if 'A' ≤ c ∧ c ≤ 'F' then some (c.toNat - 55)
  else if 'a' ≤ c ∧ c ≤ 'f' then some (c.toNat - 87)
  else none

/-- The value of a string of digits in a base, on top of the value read so far. -/
def digitsValue (base : Nat) : Nat → List Char → Option Nat
  | acc, [] => some acc
  | acc, c :: cs =>
    match digitValue c with
    | some d => if d < base then digitsValue base (acc * base + d) cs else none
    | none => none

/-- A number: `0x` hexadecimal, `0b` binary (R8), else decimal; nothing if there is no digit. -/
def parseNumber : List Char → Option Nat
  | '0' :: 'x' :: d :: ds => digitsValue 16 0 (d :: ds)
  | '0' :: 'b' :: d :: ds => digitsValue 2 0 (d :: ds)
  | d :: ds => digitsValue 10 0 (d :: ds)
  | [] => none

/-- `imm8`: a number below 256, or a character in single quotes, meaning its ASCII code (R103). -/
def parseByte : List Char → Option Byte
  | ['\'', c, '\''] => if c.toNat < 128 then some (BitVec.ofNat 8 c.toNat) else none
  | cs =>
    match parseNumber cs with
    | some v => if v < 256 then some (BitVec.ofNat 8 v) else none
    | none => none

/-- `sel`: `RX` or `TX` (R103). -/
def parseSel : List Char → Option Sel
  | ['R', 'X'] => some .rx
  | ['T', 'X'] => some .tx
  | _ => none

/-- The line without its comment, which `;` starts (R103); a `;` in single or double quotes starts none. -/
def stripComment (inText : Bool) : List Char → List Char
  | [] => []
  | '\'' :: c :: '\'' :: rest => '\'' :: c :: '\'' :: stripComment inText rest
  | c :: rest =>
    if c = '"' then c :: stripComment (!inText) rest
    else if c = ';' ∧ inText = false then []
    else c :: stripComment inText rest

/-- A list of characters without blanks at its ends. -/
def trim (cs : List Char) : List Char :=
  ((cs.dropWhile Char.isWhitespace).reverse.dropWhile Char.isWhitespace).reverse

/-- Operands are separated by commas (R103); a comma in single quotes separates none. -/
def splitOperands : List Char → List Char → List (List Char)
  | acc, [] => [trim acc.reverse]
  | acc, '\'' :: c :: '\'' :: rest => splitOperands ('\'' :: c :: '\'' :: acc) rest
  | acc, c :: rest => if c = ',' then trim acc.reverse :: splitOperands [] rest else splitOperands (c :: acc) rest

/-- Every operand a byte. -/
def parseBytes : List (List Char) → Option (List Byte)
  | [] => some []
  | o :: os =>
    match parseByte o, parseBytes os with
    | some b, some bs => some (b :: bs)
    | _, _ => none

/-- The operand of PUTS: bytes separated by commas, or text in double quotes (R105). -/
def parsePuts (cs : List Char) : Option (List Byte) :=
  match cs with
  | [] => some []
  | '"' :: rest =>
    match rest.reverse with
    | '"' :: text => if text.all (fun c => c.toNat < 128) then some (text.reverse.map fun c => BitVec.ofNat 8 c.toNat) else none
    | _ => none
  | _ => parseBytes (splitOperands [] cs)

/-- The optional words `FE` and `OE` of RXARRIVE (R103). -/
def parseStatus : List (List Char) → Option (Bool × Bool)
  | [] => some (false, false)
  | [['F', 'E']] => some (true, false)
  | [['O', 'E']] => some (false, true)
  | [['F', 'E'], ['O', 'E']] => some (true, true)
  | [['O', 'E'], ['F', 'E']] => some (true, true)
  | _ => none

/-- An instruction without operands. -/
def parsePlain (mnemonic : String) : Option Instr :=
  match mnemonic with
  | "EV.MSTEP" => some .evMstep
  | "EV.TXREADY" => some .evTxready
  | "EV.RXISR" => some .evRxisr
  | "EV.TXISR" => some .evTxisr
  | "INIT" => some .init
  | "GET" => some .get
  | "PEEK" => some .peek
  | "AVAIL" => some .avail
  | "FLUSH" => some .flush
  | "ATOM.ENTER.ATOMIC" => some .atomEnterAtomic
  | "ATOM.ENTER.NONATOMIC" => some .atomEnterNonatomic
  | "ATOM.EXIT.RESTORE" => some .atomExitRestore
  | "ATOM.EXIT.ON" => some .atomExitOn
  | "ATOM.EXIT.OFF" => some .atomExitOff
  | _ => none

/-- An instruction whose one operand is a FIFO. -/
def parseOnFifo (mnemonic : String) (sel : Sel) : Option Instr :=
  match mnemonic with
  | "F.RESET" => some (.fReset sel)
  | "F.TRYPOP" => some (.fTrypop sel)
  | "F.PEEK" => some (.fPeek sel)
  | "F.AVAIL" => some (.fAvail sel)
  | "F.FLUSH" => some (.fFlush sel)
  | _ => none

/-- An instruction from its mnemonic and its operands (R103). -/
def parseInstr (mnemonic : String) (operands : List (List Char)) : Option Instr :=
  match operands with
  | [] => parsePlain mnemonic
  | o :: rest =>
    if mnemonic = "PUT" ∧ rest = [] then (parseByte o).map .put
    else if mnemonic = "EV.RXARRIVE" then
      match parseByte o, parseStatus rest with
      | some b, some (fe, oe) => some (.evRxarrive b fe oe)
      | _, _ => none
    else
      match parseSel o, rest with
      | some sel, [] => parseOnFifo mnemonic sel
      | some sel, [b] => if mnemonic = "F.TRYPUSH" then (parseByte b).map (.fTrypush sel) else none
      | _, _ => none

/-- One line of assembler (R103): the instructions it stands for, none for a blank line or a comment, several for the
pseudo-instruction PUTS (R105). -/
def assembleLine (line : String) : Option (List Instr) :=
  let cs := trim (stripComment false line.toList)
  let mnemonic := String.ofList (cs.takeWhile fun c => !c.isWhitespace)
  let rest := trim (cs.dropWhile fun c => !c.isWhitespace)
  if cs = [] then some []
  else if mnemonic = "PUTS" then (parsePuts rest).map puts
  else (parseInstr mnemonic (if rest = [] then [] else splitOperands [] rest)).map fun i => [i]

end Sys2Proof
end

