-- ==== Sys2Proof/Machine/Fetch.lean ====
section
/-! DEFINITION. How a step finds what it runs: the schedule's next word (30_encoding.md R104) and, for the main agent, the
program word at `mpc` (41_transport_api.md R140). -/

namespace Sys2Proof.Machine

/-- The event the schedule names next, and the state with that word taken. -/
def fetchEvent (s : State) : Except Refusal (Instr × State) :=
  match s.sched with
  | [] => .error .scheduleEnded
  | w :: rest =>
    match decodeWord w with
    | none => .error .reservedEncoding
    | some i => if i.isEvent then .ok (i, { s with sched := rest }) else .error .commandWordInSchedule

/-- The main agent's current command, if its word decodes (R140). -/
def State.command (s : State) : Option Instr := (s.prog[s.mpc]?).bind decodeWord

/-- `c = prog[mpc]`, decoded (R140): the main agent's current command. -/
def fetchCommand (s : State) : Except Refusal Instr :=
  match s.prog[s.mpc]? with
  | none => .error .agentNotEnabled
  | some w =>
    match decodeWord w with
    | none => .error .reservedEncoding
    | some i => if i.isCommand then .ok i else .error .eventWordInProgram

/-- The program with `w` as its word at `mpc`, and words before it if the program is shorter (R33). -/
def placeCommand (s : State) (w : Word) : List Word :=
  (s.prog ++ List.replicate (s.mpc + 1 - s.prog.length) 0).set s.mpc w

/-- The state whose next step runs the word: an event word stands next in the schedule; any other word stands at `mpc` in the program
with EV.MSTEP next in the schedule (R104, R140; log entry 2). -/
def placeWord (s : State) (w : Word) : State :=
  match decodeWord w with
  | some i =>
    if i.isEvent then { s with sched := w :: s.sched }
    else { s with prog := placeCommand s w, sched := encode .evMstep :: s.sched }
  | none => { s with prog := placeCommand s w, sched := encode .evMstep :: s.sched }

end Sys2Proof.Machine
end

