-- ==== Sys2Proof/Machine/RingBuffer.lean ====
section
/-! DEFINITION. The format F instructions (40_ring_buffer.md R120 to R126): each one atomic step of the main agent that ends
with `mpc <- mpc + 1`. -/

namespace Sys2Proof.Machine

/-- The end of an admitted format F instruction: the instance and a result word written, the main agent advanced (R120). -/
def State.ringDone (s : State) (sel : Sel) (f : Fifo) (w : Word) : State :=
  ((s.setFifo sel f).result w).advance

/-- F.RESET (R121). It reads nothing, so it never faults; nothing is returned. -/
def execFReset (sel : Sel) (s : State) : Host.Outcome State Fault Refusal :=
  if s.admits .reset sel then
    .next (s.setFifo sel (s.fifo sel).reset).advance
  else .refused .roleViolation

/-- F.TRYPUSH (R122): `0x0001` if the byte was taken, `0x0000` if the FIFO was full. -/
def execFTrypush (sel : Sel) (imm8 : Byte) (s : State) : Host.Outcome State Fault Refusal :=
  if s.admits .push sel then
    match (s.fifo sel).tryPush (s.params.size sel) imm8 with
    | .ok (ok, f) => .next (s.ringDone sel f (boolWord ok))
    | .error e => .fault e
  else .refused .roleViolation

/-- F.TRYPOP (R123): the oldest byte, or NO_DATA. -/
def execFTrypop (sel : Sel) (s : State) : Host.Outcome State Fault Refusal :=
  if s.admits .pop sel then
    match (s.fifo sel).tryPop (s.params.size sel) with
    | .ok (r, f) => .next (s.ringDone sel f (byteWord r))
    | .error e => .fault e
  else .refused .roleViolation

/-- F.PEEK (R124): the oldest byte without taking it, or NO_DATA. It only reads, so it is always admitted. -/
def execFPeek (sel : Sel) (s : State) : Host.Outcome State Fault Refusal :=
  if s.admits .peek sel then
    match (s.fifo sel).peek (s.params.size sel) with
    | .ok r => .next (s.result (byteWord r)).advance
    | .error e => .fault e
  else .refused .roleViolation

/-- F.AVAIL (R125): the number of bytes held. It only reads, so it is always admitted. -/
def execFAvail (sel : Sel) (s : State) : Host.Outcome State Fault Refusal :=
  if s.admits .avail sel then
    match (s.fifo sel).available (s.params.size sel) with
    | .ok k => .next (s.result (countWord k)).advance
    | .error e => .fault e
  else .refused .roleViolation

/-- F.FLUSH (R126): `tail <- head`; nothing is returned. -/
def execFFlush (sel : Sel) (s : State) : Host.Outcome State Fault Refusal :=
  if s.admits .flush sel then
    match (s.fifo sel).flush with
    | .ok f => .next (s.setFifo sel f).advance
    | .error e => .fault e
  else .refused .roleViolation

end Sys2Proof.Machine
end

