-- ==== Sys2Proof/Machine/Transport.lean ====
section
/-! DEFINITION. The transport's commands (41_transport_api.md R141 to R147). PUT and GET have two phases, chosen by `mphase`;
the others are one atomic step (R140). -/

namespace Sys2Proof.Machine

/-- What INIT programs (R141): both FIFOs reset, the baud fields (R170, R171), `last_error` cleared (D17), transmit source
off, receive source on. `gie`, `rxifg` and `txifg` are not touched. -/
def State.initialised (s : State) : State :=
  { s with
    rx := s.rx.reset
    tx := s.tx.reset
    brdiv := some (BitVec.ofNat 16 (s.params.fClk / s.params.baud))
    brmod := some (Config.modLookup (s.params.fClk % s.params.baud) s.params.baud)
    lastError := .none
    txie := false
    rxie := true }

/-- INIT (R141). With both admission tests failing it names the live handlers first (log entry 6). -/
def execInit (s : State) : Host.Outcome State Fault Refusal :=
  if s.handlersQuiet then
    if s.baudInRange then .next s.initialised.advance
    else .refused .baudOutOfRange
  else .refused .initWithHandlersLive

/-- PUT's phase 0, the attempt (R142): on a full FIFO nothing changes, and the next step is another attempt. -/
def putAttempt (imm8 : Byte) (s : State) : Except Fault State :=
  match s.tx.tryPush (s.params.size .tx) imm8 with
  | .ok (true, f) => .ok { s with tx := f, mphase := .one }
  | .ok (false, _) => .ok s
  | .error e => .error e

/-- PUT's phase 1, the kick (R142): it completes the command and returns the byte. -/
def putComplete (imm8 : Byte) (s : State) : State :=
  { (s.kick.result (zext16 imm8)).advance with mphase := .zero }

/-- PUT (R142). -/
def execPut (imm8 : Byte) (s : State) : Host.Outcome State Fault Refusal :=
  match s.mphase with
  | .zero => finish (putAttempt imm8 s)
  | .one => .next (putComplete imm8 s)

/-- GET's phase 0, the pop (R144): NO_DATA completes the command; a byte is kept for phase 1. -/
def getPop (s : State) : Except Fault State :=
  match s.rx.tryPop (s.params.size .rx) with
  | .ok (none, _) => .ok (s.result noDataWord).advance
  | .ok (some b, f) => .ok { s with rx := f, mtmp := some b, mphase := .one }
  | .error e => .error e

/-- GET's phase 1, attach and clear, one step (R144, D9). `mtmp` without a value is `fault(UninitialisedRead)` (U1). -/
def getAttach (s : State) : Except Fault State :=
  match s.mtmp with
  | some b => .ok { (s.result (statusWord s.lastError b)).advance with lastError := .none, mphase := .zero }
  | none => .error .uninitialisedRead

/-- GET (R144). -/
def execGet (s : State) : Host.Outcome State Fault Refusal :=
  match s.mphase with
  | .zero => finish (getPop s)
  | .one => finish (getAttach s)

/-- PEEK (R145): the word the next GET would return; the error is shown, not cleared (D10). -/
def execPeek (s : State) : Host.Outcome State Fault Refusal :=
  match s.rx.peek (s.params.size .rx) with
  | .ok r => .next (s.result (attachedWord s.lastError r)).advance
  | .error e => .fault e

/-- AVAIL (R146): the count of the receive FIFO. -/
def execAvail (s : State) : Host.Outcome State Fault Refusal :=
  match s.rx.available (s.params.size .rx) with
  | .ok k => .next (s.result (countWord k)).advance
  | .error e => .fault e

/-- FLUSH (R147): the receive FIFO emptied; `last_error`, `rxbuf` and `rxifg` stay. -/
def execFlush (s : State) : Host.Outcome State Fault Refusal :=
  match s.rx.flush with
  | .ok f => .next { s with rx := f }.advance
  | .error e => .fault e

end Sys2Proof.Machine
end

