-- ==== Sys2Proof/Machine/Events.lean ====
section
/-! DEFINITION. The event words (30_encoding.md R94): a step of each of the five agents (00_scope.md R6). A word whose agent is
not enabled is no legal next step (R104, U14). -/

namespace Sys2Proof.Machine

/-! ## The main agent -/

/-- The main agent's step on its current command (R140): the command's own meaning, by phase where it has two. -/
def runCommand (c : Instr) (s : State) : Host.Outcome State Fault Refusal :=
  match c with
  | .fReset sel => execFReset sel s
  | .fTrypush sel imm8 => execFTrypush sel imm8 s
  | .fTrypop sel => execFTrypop sel s
  | .fPeek sel => execFPeek sel s
  | .fAvail sel => execFAvail sel s
  | .fFlush sel => execFFlush sel s
  | .init => execInit s
  | .put imm8 => execPut imm8 s
  | .get => execGet s
  | .peek => execPeek s
  | .avail => execAvail s
  | .flush => execFlush s
  | .atomEnterAtomic => execAtomEnterAtomic s
  | .atomEnterNonatomic => execAtomEnterNonatomic s
  | .atomExitRestore => execAtomExitRestore s
  | .atomExitOn => execAtomExitOn s
  | .atomExitOff => execAtomExitOff s
  | .evMstep => .refused .eventWordInProgram
  | .evTxready => .refused .eventWordInProgram
  | .evRxisr => .refused .eventWordInProgram
  | .evTxisr => .refused .eventWordInProgram
  | .evRxarrive _ _ _ => .refused .eventWordInProgram

/-- EV.MSTEP (R140): the command at `mpc` takes its next step. -/
def execEvMstep (s : State) : Host.Outcome State Fault Refusal :=
  match fetchCommand s with
  | .ok c => runCommand c s
  | .error r => .refused r

/-! ## The handlers -/

/-- The receive handler's body (R206): the byte and its status are sampled together, `rxifg` is cleared by the read, and the
byte is pushed or dropped. A register of the three that holds no value is `fault(UninitialisedRead)` (R23, U1). -/
def rxHandler (s : State) : Except Fault State :=
  match s.rxbuf, s.rxfe, s.rxoe with
  | some b, some fe, some oe =>
    match s.rx.tryPush (s.params.size .rx) b with
    | .ok (true, f) => .ok ({ s with rxifg := false, rx := f }.latchLineError fe oe)
    | .ok (false, _) => .ok { s with rxifg := false, lastError := .bufOvf }
    | .error e => .error e
  | _, _, _ => .error .uninitialisedRead

/-- The transmit handler's body (R207): one byte to `txbuf`, which sends it and clears `txifg`; or, with nothing to send, the
source switched off and `txifg` left as it is (D14). -/
def txHandler (s : State) : Except Fault State :=
  match s.tx.tryPop (s.params.size .tx) with
  | .ok (some b, f) => .ok { s with tx := f, txbuf := some b, wireOut := s.wireOut ++ [b], txifg := false }
  | .ok (none, _) => .ok { s with txie := false }
  | .error e => .error e

/-- EV.RXISR (R206). -/
def execEvRxisr (s : State) : Host.Outcome State Fault Refusal :=
  if s.rxisrEnabled then takeInterrupt rxHandler s else .refused .agentNotEnabled

/-- EV.TXISR (R207). -/
def execEvTxisr (s : State) : Host.Outcome State Fault Refusal :=
  if s.txisrEnabled then takeInterrupt txHandler s else .refused .agentNotEnabled

/-! ## The environment -/

/-- EV.RXARRIVE (R214): always enabled, with any byte and any two status bits. -/
def execEvRxarrive (imm8 : Byte) (fe oe : Bool) (s : State) : Host.Outcome State Fault Refusal :=
  .next { s with rxbuf := some imm8, rxfe := some fe, rxoe := some oe, rxifg := true }

/-- EV.TXREADY (R215): enabled iff `txifg = 0`. -/
def execEvTxready (s : State) : Host.Outcome State Fault Refusal :=
  if s.txreadyEnabled then .next { s with txifg := true } else .refused .agentNotEnabled

end Sys2Proof.Machine
end

