-- ==== Sys2Proof/Machine/Dispatch.lean ====
section
/-! DEFINITION. The dispatch: one arm per row of the opcode map (30_encoding.md R95). -/

namespace Sys2Proof.Machine

-- For a format E word, the step of the agent it names; for a format F, M or A word, the main agent's step on that command.
def exec (i : Instr) (s : State) : Host.Outcome State Fault Refusal :=
  match i with
  | .fReset sel => Sys2Proof.Machine.execFReset sel s
  | .fTrypush sel imm8 => Sys2Proof.Machine.execFTrypush sel imm8 s
  | .fTrypop sel => Sys2Proof.Machine.execFTrypop sel s
  | .fPeek sel => Sys2Proof.Machine.execFPeek sel s
  | .fAvail sel => Sys2Proof.Machine.execFAvail sel s
  | .fFlush sel => Sys2Proof.Machine.execFFlush sel s
  | .evMstep => Sys2Proof.Machine.execEvMstep s
  | .evTxready => Sys2Proof.Machine.execEvTxready s
  | .evRxisr => Sys2Proof.Machine.execEvRxisr s
  | .evTxisr => Sys2Proof.Machine.execEvTxisr s
  | .evRxarrive imm8 fe oe => Sys2Proof.Machine.execEvRxarrive imm8 fe oe s
  | .init => Sys2Proof.Machine.execInit s
  | .put imm8 => Sys2Proof.Machine.execPut imm8 s
  | .get => Sys2Proof.Machine.execGet s
  | .peek => Sys2Proof.Machine.execPeek s
  | .avail => Sys2Proof.Machine.execAvail s
  | .flush => Sys2Proof.Machine.execFlush s
  | .atomEnterAtomic => Sys2Proof.Machine.execAtomEnterAtomic s
  | .atomEnterNonatomic => Sys2Proof.Machine.execAtomEnterNonatomic s
  | .atomExitRestore => Sys2Proof.Machine.execAtomExitRestore s
  | .atomExitOn => Sys2Proof.Machine.execAtomExitOn s
  | .atomExitOff => Sys2Proof.Machine.execAtomExitOff s

end Sys2Proof.Machine
end

