-- ==== Sys2Proof/Machine/Step.lean ====
section
/-! DEFINITION. One step of the machine (00_scope.md R10): the agent the schedule names next (30_encoding.md R104) takes one
atomic step. -/

namespace Sys2Proof.Machine

/-- One step: the schedule's next word, taken from it, is run. -/
def step (s : State) : Host.Outcome State Fault Refusal :=
  match fetchEvent s with
  | .ok (i, t) => exec i t
  | .error r => .refused r

/-- `s` with the instruction whose table bits are `w` placed where the next step runs it (log entry 2). -/
def State.withFetchWord (s : State) (nbits w : Nat) : State :=
  placeWord s (BitVec.ofNat 16 (w % 2 ^ nbits))

end Sys2Proof.Machine
end

