-- ==== Sys2Proof/Machine/LineEditor.lean ====
section
/-! DEFINITION. The line editor (49_line_editor_collaborator.md R180 to R194): software outside the block (00_scope.md R5), so
it is no part of State; a pure transition function, the form R193 suggests. The bytes fed are those GET returned, and
every byte emitted is sent with PUT (R181). -/

namespace Sys2Proof.Machine

/-- The `state` tag (R180). -/
inductive EditMode where
  /-- `RUNNING`, initial. -/
  | running
  /-- `ESCAPE`. -/
  | escape
  /-- `ESCAPE_BRACKET`. -/
  | escapeBracket
  /-- `ESCAPE_BRACKET_TILDE`. -/
  | escapeBracketTilde
  /-- `LINE_READY`, until drained. -/
  | lineReady
deriving DecidableEq, Repr

/-- Printable: `0x20` to `0x7e` (R194). -/
abbrev printable (c : Byte) : Prop := 0x20 ≤ c ∧ c ≤ 0x7E

/-- The editor's state (R180) with its two parameters (R7). -/
structure LineEditor where
  /-- `L`, the line buffer length. -/
  capacity  : Nat
  /-- `BS_CODE`, the byte treated as Backspace. -/
  backspace : Byte
  /-- `line[0 .. L-1]`: the character array, all of its cells. -/
  line      : List Byte
  /-- `len`, the current line length. -/
  len       : Nat
  /-- The cursor index. -/
  position  : Nat
  /-- The state tag. -/
  mode      : EditMode
deriving DecidableEq, Repr

/-- The editor at init (R180), with `BS_CODE = 0x08` unless told otherwise (R194). What the cells hold is a free value (log entry 9). -/
def editorInit (capacity : Nat) (backspace : Byte := Config.bsCode) : LineEditor :=
  { capacity := capacity, backspace := backspace, line := (List.range capacity).map Config.lineCellAtInit, len := 0,
    position := 0, mode := .running }

/-- `line[0 .. len-1]`: the characters of the current line. -/
def LineEditor.text (e : LineEditor) : List Byte := e.line.take e.len

/-- `line[dst .. dst+n-1] <- line[src .. src+n-1]`, all cells read before any is written (R183, R186, R189). -/
def moveCells (line : List Byte) (dst src n : Nat) : List Byte :=
  line.take dst ++ (line.drop src).take n ++ line.drop (dst + n)

/-! ## The byte sequences emitted (R182) -/

/-- `CUR_RIGHT`, `ESC [ C`. -/
def curRight : List Byte := [0x1B, 0x5B, 0x43]

/-- `CUR_LEFT`, `ESC [ D`. -/
def curLeft : List Byte := [0x1B, 0x5B, 0x44]

/-- `CUR_SAVE`, `ESC [ s`. -/
def curSave : List Byte := [0x1B, 0x5B, 0x73]

/-- `CUR_RESTORE`, `ESC [ u`. -/
def curRestore : List Byte := [0x1B, 0x5B, 0x75]

/-- `CLR_EOL`, `ESC [ 0 K`. -/
def clrEol : List Byte := [0x1B, 0x5B, 0x30, 0x4B]

/-- `BELL`. -/
def bell : List Byte := [0x07]

/-! ## feed -/

/-- Backspace in RUNNING (R183): the character before the cursor is removed. -/
def editBackspace (e : LineEditor) : LineEditor × List Byte :=
  if e.position = 0 then (e, bell)
  else
    ({ e with line := moveCells e.line (e.position - 1) e.position (e.len - e.position), len := e.len - 1,
              position := e.position - 1 },
      curLeft ++ curSave ++ clrEol ++ e.text.drop e.position ++ curRestore)

/-- CR or LF in RUNNING (R185): the line is terminated with NUL and ready. -/
def editTerminate (e : LineEditor) : LineEditor × List Byte :=
  ({ e with line := e.line.set e.len 0x00, mode := .lineReady }, [])

/-- A printable byte in RUNNING (R186): inserted at the cursor and echoed, or a bell if the buffer is full. -/
def editInsert (e : LineEditor) (c : Byte) : LineEditor × List Byte :=
  if e.len = e.capacity - 1 then (e, bell)
  else
    ({ e with line := (moveCells e.line (e.position + 1) e.position (e.len - e.position)).set e.position c,
              len := e.len + 1, position := e.position + 1 }, [c])

/-- A byte in RUNNING, by the input classes of R194, tested in the order given there (R183 to R187). -/
def feedRunning (e : LineEditor) (c : Byte) : LineEditor × List Byte :=
  if c = e.backspace then editBackspace e
  else if c = 0x1B then ({ e with mode := .escape }, [])
  else if c = 0x0D ∨ c = 0x0A then editTerminate e
  else if printable c then editInsert e c
  else (e, [])

/-- `'C'` in ESCAPE_BRACKET: cursor right (R189, 90_conflicts.md C7). -/
def editRight (e : LineEditor) : LineEditor × List Byte :=
  if e.position = e.len then ({ e with mode := .running }, bell)
  else ({ e with position := e.position + 1, mode := .running }, curRight)

/-- `'D'` in ESCAPE_BRACKET: cursor left (R189). -/
def editLeft (e : LineEditor) : LineEditor × List Byte :=
  if e.position = 0 then ({ e with mode := .running }, bell)
  else ({ e with position := e.position - 1, mode := .running }, curLeft)

/-- `'3'` in ESCAPE_BRACKET: delete forward (R189). The next mode swallows the trailing tilde in either case (D28). -/
def editDelete (e : LineEditor) : LineEditor × List Byte :=
  if e.position = e.len then ({ e with mode := .escapeBracketTilde }, bell)
  else
    ({ e with line := moveCells e.line e.position (e.position + 1) (e.len - 1 - e.position), len := e.len - 1,
              mode := .escapeBracketTilde },
      curSave ++ clrEol ++ e.text.drop (e.position + 1) ++ curRestore)

/-- A byte in ESCAPE_BRACKET (R189). -/
def feedBracket (e : LineEditor) (c : Byte) : LineEditor × List Byte :=
  if c = 0x43 then editRight e
  else if c = 0x44 then editLeft e
  else if c = 0x33 then editDelete e
  else if c = 0x32 ∨ c = 0x35 ∨ c = 0x36 then ({ e with mode := .escapeBracketTilde }, [])
  else ({ e with mode := .running }, [])

/-- `feed(byte)` (R181): the editor after one byte, and the bytes emitted, in order. -/
def feed (e : LineEditor) (c : Byte) : LineEditor × List Byte :=
  match e.mode with
  | .running => feedRunning e c
  | .escape => ({ e with mode := if c = 0x5B then .escapeBracket else .running }, [])
  | .escapeBracket => feedBracket e c
  | .escapeBracketTilde => ({ e with mode := .running }, [])
  | .lineReady => (e, [])

/-- A sequence of bytes fed in arrival order (R193): the editor at the end and all it emitted. -/
def feedAll (e : LineEditor) : List Byte → LineEditor × List Byte
  | [] => (e, [])
  | c :: cs =>
    let r := feed e c
    let q := feedAll r.1 cs
    (q.1, r.2 ++ q.2)

/-- `drain()` (R192): the finished line, or nothing and no effect. The line is cleared by `len = 0`; its cells keep their bytes (log
entry 9). -/
def drain (e : LineEditor) : Option (List Byte) × LineEditor :=
  match e.mode with
  | .lineReady => (some e.text, { e with len := 0, position := 0, mode := .running })
  | .running => (none, e)
  | .escape => (none, e)
  | .escapeBracket => (none, e)
  | .escapeBracketTilde => (none, e)

/-- The commands that send what the editor emitted: one PUT for each byte (R181, R105). -/
def echoCommands (emitted : List Byte) : List Instr := puts emitted

end Sys2Proof.Machine
end

