-- ==== Sys2Proof/Machine/Console.lean ====
section
/-! DEFINITION. The main program as the line editor's host (49_line_editor_collaborator.md R181): the byte fed is one GET returned, and
what the editor emits is sent with PUT, in order. It stands outside the block, like the editor (00_scope.md R5). -/

namespace Sys2Proof.Machine

/-- The byte of a GET result word, or nothing for `NO_DATA` (R98). -/
def receivedByte (w : Word) : Option Byte := if w.getLsbD 8 then none else some (w.setWidth 8)

/-- The result word carries a latched error code (R98, R99). -/
def carriesError (w : Word) : Bool := w.extractLsb' 9 3 != 0#3

/-- The word GET returned in a step from `s` to `t` that completed it (R144). -/
def getResult (s t : State) : Option Word :=
  if s.command = some .get ∧ t.mpc = s.mpc + 1 then t.mres.getLast? else none

/-- The result word of the GET at `mpc` handed to the editor (R181). Nothing is fed for `NO_DATA`; whether a byte with an error code is
fed is a free value (log entry 13). -/
def feedResult (mpc : Nat) (w : Word) (e : LineEditor) : LineEditor × List Byte :=
  match receivedByte w with
  | some b => if carriesError w && !Config.feedsDamaged mpc w then (e, []) else feed e b
  | none => (e, [])

/-- The main program issues commands (R33, R181). DESIGN CHOICE (log entry 13): they come next, before what was to come. -/
def State.issue (s : State) (commands : List Instr) : State :=
  { s with prog := s.prog.take s.mpc ++ commands.map encode ++ s.prog.drop s.mpc }

/-- The block and the editor its main program runs. -/
structure Console where
  /-- The block. -/
  machine : State
  /-- The line editor. -/
  editor  : LineEditor
deriving DecidableEq, Repr

/-- What the main program does once the block has stepped to `t`: a byte GET returned is fed, and what the editor emits is issued as
PUTs (R181). -/
def Console.afterStep (c : Console) (t : State) : Console :=
  match getResult c.machine t with
  | some w =>
    { machine := t.issue (echoCommands (feedResult c.machine.mpc w c.editor).2),
      editor := (feedResult c.machine.mpc w c.editor).1 }
  | none => { c with machine := t }

/-- One step of the block with its main program's editor. -/
def Console.step (c : Console) : Host.Outcome Console Fault Refusal :=
  match Sys2Proof.Machine.step c.machine with
  | .next t => .next (c.afterStep t)
  | .fault f => .fault f
  | .refused r => .refused r

/-- The main program drains the editor: the finished line goes to the command dispatcher (R181, R192). -/
def Console.drain (c : Console) : Option (List Byte) × Console :=
  ((Sys2Proof.Machine.drain c.editor).1, { c with editor := (Sys2Proof.Machine.drain c.editor).2 })

end Sys2Proof.Machine
end

