-- ==== Sys2Proof/Safety.lean ====
section
/-! DEFINITION. What claims are stated in: the abstract queue (10_state.md R39), the invariants of the reachable states, safe
outcomes (R148), the end of a run (70_reset_and_hazards.md R251), runs and fairness (60_exceptions.md R217). -/

namespace Sys2Proof.Machine

/-! ## The abstract queue -/

/-- `contents(f)` (R39): `[ f.buf[(f.tail + k) & mask] for k = 1 .. (f.head - f.tail) mod N ]`, oldest first; nothing while an index
holds no value. In a valid instance no slot of the list lacks a value (`Fifo.Valid.live`). -/
def Fifo.contents (n : Nat) (f : Fifo) : List Byte :=
  match f.head, f.tail with
  | some h, some t => (List.range ((n + h - t) % n)).filterMap fun k => f.buf.read ((t + 1 + k) % n)
  | _, _ => []

/-- The bytes an instance of the state holds (R22, R39). -/
def State.contents (s : State) (sel : Sel) : List Byte := (s.fifo sel).contents (s.params.size sel)

/-- Both indices hold a value (R23). -/
def Fifo.started (f : Fifo) : Prop := f.head.isSome = true ∧ f.tail.isSome = true

/-- A FIFO instance as the rules leave it (R21 to R23, R129): storage canonical and within its `n` slots; indices both without a
value, or both below `n` with every slot of the contents holding a value. -/
structure Fifo.Valid (n : Nat) (f : Fifo) : Prop where
  /-- Storage is in its canonical form. -/
  canonical : f.buf.wf
  /-- No slot outside `0 .. n-1` exists (R60). -/
  inRange : ∀ c ∈ f.buf, c.1 < n
  /-- The two indices get their value together (R121). -/
  together : f.head.isSome = f.tail.isSome
  /-- R129: indices lie below `n`. -/
  headLt : ∀ h, f.head = some h → h < n
  /-- R129. -/
  tailLt : ∀ t, f.tail = some t → t < n
  /-- R23: every slot from `tail + 1` to `head` was written by a push. -/
  live : ∀ h t, f.head = some h → f.tail = some t → ∀ k, k < (n + h - t) % n →
    (f.buf.read ((t + 1 + k) % n)).isSome = true

/-- A call on a FIFO from either of its sides (R127). -/
inductive QueueCall where
  /-- `try_push` of a byte. -/
  | push (b : Byte)
  /-- `try_pop`. -/
  | pop
deriving DecidableEq, Repr

/-- A sequence of calls on an instance with `n` slots: the bytes of the successful pops, the bytes of the successful pushes,
each in order, and the instance after (R127). -/
def Fifo.play (n : Nat) : Fifo → List QueueCall → Except Fault (List Byte × List Byte × Fifo)
  | f, [] => .ok ([], [], f)
  | f, .push b :: rest =>
    match f.tryPush n b with
    | .error e => .error e
    | .ok (ok, g) =>
      match Fifo.play n g rest with
      | .error e => .error e
      | .ok (popped, pushed, h) => .ok (popped, if ok then b :: pushed else pushed, h)
  | f, .pop :: rest =>
    match f.tryPop n with
    | .error e => .error e
    | .ok (r, g) =>
      match Fifo.play n g rest with
      | .error e => .error e
      | .ok (popped, pushed, h) => .ok (r.toList ++ popped, pushed, h)

/-! ## Reserved encodings -/

/-- The prose of R101: the words that match no row, by format. `op` is bits 15:12, `imm8` bits 7:0. -/
def reservedByRule (w : Word) : Prop :=
  let op := w.toNat / 4096
  let imm8 := w.toNat % 256
  let ev := w.toNat / 256 % 16
  op = 0 ∨
  (1 ≤ op ∧ op ≤ 6 ∧ (ev % 8 ≠ 0 ∨ (op ≠ 2 ∧ imm8 ≠ 0))) ∨
  (op = 7 ∧ ((4 ≤ ev ∧ ev ≤ 7) ∨ 12 ≤ ev ∨ (ev ≤ 3 ∧ imm8 ≠ 0))) ∨
  (8 ≤ op ∧ op ≤ 13 ∧ (ev ≠ 0 ∨ (op ≠ 9 ∧ imm8 ≠ 0))) ∨
  (14 ≤ op ∧ w.toNat / 4 % 1024 ≠ 0) ∨
  w = 0xE002 ∨ w = 0xE003 ∨ w = 0xF003

/-! ## The invariant of the reachable states -/

/-- What every step keeps, whatever the program and the schedule hold. -/
structure State.Inv (s : State) : Prop where
  /-- The receive FIFO is as the rules leave it. -/
  rxValid : s.rx.Valid (s.params.size .rx)
  /-- The transmit FIFO is as the rules leave it. -/
  txValid : s.tx.Valid (s.params.size .tx)
  /-- The receive source is enabled only once INIT has run (R28). -/
  rxieStarted : s.rxie = true → s.rx.started
  /-- The transmit source is enabled only by a PUT, after INIT or F.RESET (R29). -/
  txieStarted : s.txie = true → s.tx.started
  /-- `rxifg` is set only with a byte and its status in the receive register (R26, R28). -/
  rxifgFull : s.rxifg = true → s.rxbuf.isSome = true ∧ s.rxfe.isSome = true ∧ s.rxoe.isSome = true
  /-- `last_error` never holds NO_DATA (R25). -/
  latched : s.lastError ≠ .noData
  /-- `mpc` never passes the end of the program (R35). -/
  mpcLe : s.mpc ≤ s.prog.length
  /-- `mphase` is 1 only within a GET that has popped its byte or a PUT that has pushed one (R33, R140). -/
  phaseOne : s.mphase = .one →
    (s.command = some .get ∧ s.mtmp.isSome = true) ∨ ((∃ b, s.command = some (.put b)) ∧ s.tx.started)

/-! ## Frames: what two states agree on -/

/-- The UART's registers and flags and the baud fields are unchanged (R26 to R29, R31). -/
def sameUart (s t : State) : Prop :=
  t.rxbuf = s.rxbuf ∧ t.rxfe = s.rxfe ∧ t.rxoe = s.rxoe ∧ t.rxifg = s.rxifg ∧ t.rxie = s.rxie ∧
  t.txbuf = s.txbuf ∧ t.txifg = s.txifg ∧ t.txie = s.txie ∧ t.brdiv = s.brdiv ∧ t.brmod = s.brmod

/-- The global interrupt enable and the captured values are unchanged (R30, R32). -/
def sameSection (s t : State) : Prop := t.gie = s.gie ∧ t.atomStack = s.atomStack

/-- The main agent's own registers are unchanged (R32, R33). -/
def sameMain (s t : State) : Prop :=
  t.atomStack = s.atomStack ∧ t.mpc = s.mpc ∧ t.mphase = s.mphase ∧ t.mtmp = s.mtmp ∧ t.mres = s.mres

/-- The parameters of the run are unchanged (R20). -/
def sameRun (s t : State) : Prop := t.params = s.params ∧ t.prog = s.prog ∧ t.sched = s.sched

/-- Every slot of an instance's storage reads as before. -/
def sameStorage (sel : Sel) (s t : State) : Prop := ∀ a, (t.fifo sel).buf.read a = (s.fifo sel).buf.read a

/-- Every slot but one of an instance's storage reads as before. -/
def sameStorageBut (slot : Nat) (sel : Sel) (s t : State) : Prop :=
  ∀ a, a ≠ slot → (t.fifo sel).buf.read a = (s.fifo sel).buf.read a

/-- The other instance. -/
def otherFifo : Sel → Sel
  | .rx => .tx
  | .tx => .rx

/-! ## Safe outcomes -/

/-- The outcome is no fault: the only fault of the block is a read of state that holds no value (R23, R148). -/
def noFault (o : Host.Outcome State Fault Refusal) : Prop := ∀ f, o ≠ .fault f

/-- A run of `k` steps that meets neither a fault nor a refusal. -/
def safeFor (k : Nat) (s : State) : Prop := ∃ t, Host.Core.run Sys2Proof.core k s = .next t

/-- The main agent's command may step: the admission its rule sets (R120, R141), and a section open where it closes one (R166). -/
def commandAdmitted (c : Instr) (s : State) : Prop :=
  match c with
  | .fReset sel => s.admits .reset sel = true
  | .fTrypush sel _ => s.admits .push sel = true
  | .fTrypop sel => s.admits .pop sel = true
  | .fPeek _ => True
  | .fAvail _ => True
  | .fFlush sel => s.admits .flush sel = true
  | .init => s.handlersQuiet = true ∧ s.baudInRange = true
  | .put _ => True
  | .get => True
  | .peek => True
  | .avail => True
  | .flush => True
  | .atomEnterAtomic => True
  | .atomEnterNonatomic => True
  | .atomExitRestore => s.atomStack ≠ []
  | .atomExitOn => s.atomStack ≠ []
  | .atomExitOff => s.atomStack ≠ []
  | .evMstep => False
  | .evTxready => False
  | .evRxisr => False
  | .evTxisr => False
  | .evRxarrive _ _ _ => False

/-! ## The end of a run -/

/-- R251: the run has ended, for claims not about transmission: no main step left and neither handler enabled (D30). RXARRIVE and
TXREADY have no part in it. -/
def State.ended (s : State) : Prop :=
  s.mpc = s.prog.length ∧ s.rxisrEnabled = false ∧ s.txisrEnabled = false

/-- R251: the run has ended, for claims about transmission: besides, the TX FIFO is empty and `txie = 0` (D30). -/
def State.endedForTransmit (s : State) : Prop := s.ended ∧ s.contents .tx = [] ∧ s.txie = false

/-! ## Runs and fairness -/

/-- An infinite run: event `ev n` is the step taken in state `r n` (R10, R104). -/
def IsRun (ev : Nat → Instr) (r : Nat → State) : Prop :=
  ∀ n, (ev n).isEvent = true ∧ exec (ev n) (r n) = .next (r (n + 1))

/-- R217: an agent that stays enabled eventually steps. -/
def weaklyFairTo (enabled : State → Bool) (event : Instr) (ev : Nat → Instr) (r : Nat → State) : Prop :=
  ∀ n, (∀ m, n ≤ m → enabled (r m) = true) → ∃ m, n ≤ m ∧ ev m = event

/-- R217: the runs of which the liveness statements hold. -/
structure Fair (ev : Nat → Instr) (r : Nat → State) : Prop where
  /-- TXREADY, once enabled, eventually steps (only TXREADY or the kick ends its being enabled). -/
  txready : weaklyFairTo State.txreadyEnabled .evTxready ev r
  /-- A transmit handler that stays enabled eventually steps. -/
  txisr : weaklyFairTo State.txisrEnabled .evTxisr ev r
  /-- A receive handler that stays enabled eventually steps. -/
  rxisr : weaklyFairTo State.rxisrEnabled .evRxisr ev r
  /-- The main agent, while it has a step, eventually steps. -/
  main : weaklyFairTo State.mainEnabled .evMstep ev r
  /-- `gie` is eventually 1 again. -/
  gieAgain : ∀ n, ∃ m, n ≤ m ∧ (r m).gie = true

/-- A push on the instance would find room (R122). -/
def Fifo.hasRoom (n : Nat) (f : Fifo) : Prop :=
  ∃ h t, f.head = some h ∧ f.tail = some t ∧ nextIndex n h ≠ t

/-- The event is a main step that queues byte `b` for transmission: PUT's attempt or F.TRYPUSH TX, with room in the TX FIFO. -/
def queuesTx (i : Instr) (s : State) (b : Byte) : Prop :=
  i = .evMstep ∧ s.tx.hasRoom (s.params.size .tx) ∧
    ((s.command = some (.put b) ∧ s.mphase = .zero) ∨ s.command = some (.fTrypush .tx b))

/-- The command discards bytes queued for transmission, or takes them by hand (R121, R123, R126, R246). -/
def discardsTx (c : Instr) : Bool :=
  c == .fReset .tx || c == .fTrypop .tx || c == .fFlush .tx || c == .init

/-- The event is a main step on a command that discards bytes queued for transmission. -/
def eventDiscardsTx (i : Instr) (s : State) : Prop :=
  i = .evMstep ∧ ∃ c, s.command = some c ∧ discardsTx c = true

/-- A program writes the TX FIFO through INIT, PUT and PUTS only: no format F instruction with `sel = TX` (R212). -/
def txThroughPutOnly (prog : List Word) : Prop :=
  ∀ w ∈ prog, ∀ i, decodeWord w = some i →
    i ≠ .fReset .tx ∧ (∀ b, i ≠ .fTrypush .tx b) ∧ i ≠ .fTrypop .tx ∧ i ≠ .fFlush .tx

/-- R212: `txie = 0` implies that the TX FIFO is empty or a PUT is between its two phases. -/
def State.kickInv (s : State) : Prop :=
  s.txie = false → s.contents .tx = [] ∨ (s.mphase = .one ∧ ∃ b, s.command = some (.put b))

/-! ## The line editor -/

/-- What holds of a line editor in every state: R180's bounds, R7's constraints on `L` and `BS_CODE`, and R185's NUL after a line that
is ready. -/
structure LineEditor.Bounded (e : LineEditor) : Prop where
  /-- `L >= 2` (R7). -/
  capacityGe : 2 ≤ e.capacity
  /-- `BS_CODE` is outside `0x20 .. 0x7e` (R7). -/
  backspaceCtl : ¬ printable e.backspace
  /-- The array has `L` cells (R180). -/
  cells : e.line.length = e.capacity
  /-- `position <= len` (R180). -/
  positionLe : e.position ≤ e.len
  /-- `len <= L - 1` (R180): room for the NUL. -/
  lenLe : e.len ≤ e.capacity - 1
  /-- `line[len] = 0x00` while the line is ready (R185). -/
  terminated : e.mode = .lineReady → e.line[e.len]? = some 0x00

end Sys2Proof.Machine
end

