-- ==== Sys2Proof/Certificates/Slice0/Obligations.lean ====
section
/-! DEFINITION. The statements for the provers, from the spec's numbered rules. Every statement about states is about every
state, so about every value of the parameters (00_scope.md R7) and of the free values. -/

open Sys2Proof Sys2Proof.Machine

/-! ## Encoding (30_encoding.md) -/

/-- Every instruction with every operand: the decoder reads back what the encoder writes (R95, R96). -/
def Obligations.DecodeOfEncodeIsIdentity : Prop :=
  ∀ i : Instr, decodeWord (encode i) = some i

/-- The other direction: a word that decodes is the encoding of what it decodes to, so no bit of a word is ignored (R95, R101). -/
def Obligations.EncodeOfDecodeIsIdentity : Prop :=
  ∀ (w : Word) (i : Instr), decodeWord w = some i → encode i = w

/-- Words of R103 and of 95_test_vectors.md 2.1, one or more of each format, decode to what they stand for. -/
def Obligations.SpecWordsDecode : Prop :=
  decodeWord 0x2841 = some (.fTrypush .tx 0x41) ∧ decodeWord 0x5800 = some (.fAvail .tx) ∧
  decodeWord 0x7965 = some (.evRxarrive 0x65 true false) ∧ decodeWord 0x7A41 = some (.evRxarrive 0x41 false true) ∧
  decodeWord 0x904F = some (.put 0x4F) ∧ decodeWord 0xA000 = some .get ∧
  decodeWord 0xE001 = some .atomEnterNonatomic ∧ decodeWord 0xF002 = some .atomExitOff

/-- R101: the words the rule's prose lists are exactly those that decode to nothing, and such a word reached in a program is refused. -/
def Obligations.ReservedWordsAreExactlyR101 : Prop :=
  ∀ w : Word, (decodeWord w = none ↔ reservedByRule w) ∧
    ∀ s : State, s.prog[s.mpc]? = some w → reservedByRule w → exec .evMstep s = .refused .reservedEncoding

/-- R96: the rows are disjoint, so at most one matches. -/
def Obligations.OpcodeRowsAreDisjoint : Prop :=
  ∀ r ∈ opcodeMap, ∀ q ∈ opcodeMap, ∀ w : Word,
    r.spells w = true → q.spells w = true → r.mnemonic = q.mnemonic

/-- R105: PUTS of any bytes is that many PUT words, in order, and a well-formed program. -/
def Obligations.PutsExpandsToPutWords : Prop :=
  ∀ bs : List Byte,
    (puts bs).map encode = bs.map (fun b => 0x9000#16 ||| b.setWidth 16) ∧
    decodeAll ((puts bs).map encode) = some (bs.map Instr.put) ∧
    progWordsWellFormed ((puts bs).map encode) = true

/-! ## The step (00_scope.md R10, 30_encoding.md R104, 41_transport_api.md R140) -/

/-- The schedule's next word, if it decodes to an event, is taken from the schedule and run. -/
def Obligations.StepRunsScheduledEvent : Prop :=
  ∀ (s : State) (w : Word) (rest : List Word) (i : Instr),
    s.sched = w :: rest → decodeWord w = some i → i.isEvent = true →
    step s = exec i { s with sched := rest }

/-- EV.MSTEP runs the command that the program word at `mpc` decodes to (R140), and a step whose next schedule word is
EV.MSTEP runs it. -/
def Obligations.MainStepRunsCommandAtMpc : Prop :=
  ∀ (s : State) (w : Word) (c : Instr),
    s.prog[s.mpc]? = some w → decodeWord w = some c → c.isCommand = true →
    exec .evMstep s = exec c s ∧
    ∀ rest, s.sched = 0x7000 :: rest → step s = exec c { s with sched := rest }

/-- R203, R215, R104: an event is refused as no legal next step exactly when its agent is not enabled; RXARRIVE never is (R214). -/
def Obligations.EventsRefusedExactlyWhenDisabled : Prop :=
  ∀ s : State,
    (exec .evRxisr s = .refused .agentNotEnabled ↔ ¬ (s.gie = true ∧ s.rxie = true ∧ s.rxifg = true)) ∧
    (exec .evTxisr s = .refused .agentNotEnabled ↔ ¬ (s.gie = true ∧ s.txie = true ∧ s.txifg = true)) ∧
    (exec .evTxready s = .refused .agentNotEnabled ↔ s.txifg = true) ∧
    (exec .evMstep s = .refused .agentNotEnabled ↔ s.prog.length ≤ s.mpc) ∧
    (∀ b fe oe, exec (.evRxarrive b fe oe) s ≠ .refused .agentNotEnabled)

/-- R101, R94, R104, R251: reserved and misplaced words are refused where they are reached, and an empty schedule stops. -/
def Obligations.MisplacedWordsAreRefused : Prop :=
  ∀ (s : State) (w : Word),
    (s.prog[s.mpc]? = some w → decodeWord w = none → exec .evMstep s = .refused .reservedEncoding) ∧
    (∀ i, s.prog[s.mpc]? = some w → decodeWord w = some i → i.isEvent = true →
      exec .evMstep s = .refused .eventWordInProgram) ∧
    (∀ rest i, s.sched = w :: rest → decodeWord w = some i → i.isCommand = true →
      step s = .refused .commandWordInSchedule) ∧
    (∀ rest, s.sched = w :: rest → decodeWord w = none → step s = .refused .reservedEncoding) ∧
    (s.sched = [] → step s = .refused .scheduleEnded)

/-- R74, R20: no step changes the program or the parameters, and a step takes exactly one word from the schedule. -/
def Obligations.StepKeepsProgramAndParameters : Prop :=
  ∀ s t : State, step s = .next t →
    t.params = s.params ∧ t.prog = s.prog ∧ ∃ w, s.sched = w :: t.sched

/-! ## Reset (10_state.md R38) -/

/-- R38: the value of every piece of state after reset, for any parameters and either draw of `txifg`, and of `State.reset`, whose
`txifg` is the free value of log entry 3 (nothing is said of it). -/
def Obligations.ResetValues : Prop :=
  ∀ (p : Params) (b : Bool), ∀ s ∈ [State.powerOn p b, State.reset],
    (∀ a, s.rx.buf.read a = none ∧ s.tx.buf.read a = none) ∧
    s.rx.head = none ∧ s.rx.tail = none ∧ s.tx.head = none ∧ s.tx.tail = none ∧
    s.lastError = .none ∧ s.rxbuf = none ∧ s.rxfe = none ∧ s.rxoe = none ∧ s.rxifg = false ∧ s.rxie = false ∧
    s.txbuf = none ∧ s.txie = false ∧ s.gie = false ∧ s.brdiv = none ∧ s.brmod = none ∧ s.atomStack = [] ∧
    s.mpc = 0 ∧ s.mphase = .zero ∧ s.mtmp = none ∧ s.mres = [] ∧ s.wireOut = [] ∧
    (State.powerOn p b).txifg = b

/-- R23: after power-on the storage, the indices and the data registers hold no value, and every read of an index, a slot or a receive
register that holds no value is `fault(UninitialisedRead)`: first the FIFO instructions (admitted by `gie = 0`; F.RESET reads
nothing, F.FLUSH only `head`), then the transport's commands (FLUSH reads only `head`), then the slots, then the handlers. No rule reads `txbuf`, `brdiv` or `brmod`. -/
def Obligations.ReadOfNoValueFaults : Prop :=
  (∀ (p : Params) (x : Bool), ∀ s ∈ [State.powerOn p x],
    (∀ a, s.rx.buf.read a = none ∧ s.tx.buf.read a = none) ∧ s.rx.head = none ∧ s.rx.tail = none ∧
    s.tx.head = none ∧ s.tx.tail = none ∧ s.rxbuf = none ∧ s.txbuf = none ∧ s.rxfe = none ∧ s.rxoe = none ∧
    s.brdiv = none ∧ s.brmod = none) ∧
  ∀ (sel : Sel) (b : Byte) (s : State),
    (∀ i ∈ [Instr.fTrypush sel b, .fTrypop sel, .fPeek sel, .fAvail sel],
      (s.fifo sel).head = none ∨ (s.fifo sel).tail = none → s.gie = false → exec i s = .fault .uninitialisedRead) ∧
    ((s.fifo sel).head = none → s.gie = false → exec (.fFlush sel) s = .fault .uninitialisedRead) ∧
    (∀ i ∈ [Instr.get, .peek, .avail], s.rx.head = none ∨ s.rx.tail = none → s.mphase = .zero →
      exec i s = .fault .uninitialisedRead) ∧
    (s.rx.head = none → exec .flush s = .fault .uninitialisedRead) ∧
    (s.tx.head = none ∨ s.tx.tail = none → s.mphase = .zero → exec (.put b) s = .fault .uninitialisedRead) ∧
    (∀ h t, (s.fifo sel).head = some h → (s.fifo sel).tail = some t → h ≠ t →
      (s.fifo sel).buf.read (nextIndex (s.params.size sel) t) = none →
      exec (.fPeek sel) s = .fault .uninitialisedRead ∧
      (s.gie = false → exec (.fTrypop sel) s = .fault .uninitialisedRead) ∧
      (sel = .rx → exec .peek s = .fault .uninitialisedRead ∧
        (s.mphase = .zero → exec .get s = .fault .uninitialisedRead)) ∧
      (sel = .tx → s.txisrEnabled = true → exec .evTxisr s = .fault .uninitialisedRead)) ∧
    (s.rxisrEnabled = true →
      s.rxbuf = none ∨ s.rxfe = none ∨ s.rxoe = none ∨ s.rx.head = none ∨ s.rx.tail = none →
      exec .evRxisr s = .fault .uninitialisedRead) ∧
    (s.txisrEnabled = true → s.tx.head = none ∨ s.tx.tail = none → exec .evTxisr s = .fault .uninitialisedRead)

/-! ## The FIFO instructions (40_ring_buffer.md) -/

/-- R121: F.RESET (`0x1000 | sel << 11`) sets both indices to 0, leaves storage alone and returns nothing; it is admitted in cases 3 and 4
of R120 only and never faults. -/
def Obligations.FResetZeroesIndices : Prop :=
  ∀ (sel : Sel) (s : State),
    decodeWord (0x1000 ||| selBits sel) = some (.fReset sel) ∧
    (s.gie = false ∨ s.handlerEnable sel = false →
      exec (.fReset sel) s =
        .next { s.setFifo sel { s.fifo sel with head := some 0, tail := some 0 } with mpc := s.mpc + 1 }) ∧
    (s.gie = true → s.handlerEnable sel = true → exec (.fReset sel) s = .refused .roleViolation)

/-- R122: F.TRYPUSH (`0x2000 | sel << 11 | imm8`), admitted, on a FIFO that is not full stores the byte at the next slot, publishes it and
returns 0x0001; on a full one nothing changes but the result trace, which gains 0x0000, and `mpc`. Before the first reset it
faults; outside R120 it is refused. -/
def Obligations.FTrypushAppendsOrReportsFull : Prop :=
  ∀ (sel : Sel) (b : Byte) (s : State),
    decodeWord (0x2000 ||| selBits sel ||| b.setWidth 16) = some (.fTrypush sel b) ∧
    (sel = .rx → s.gie = true → s.rxie = true → exec (.fTrypush sel b) s = .refused .roleViolation) ∧
    (sel = .tx ∨ s.gie = false ∨ s.rxie = false →
      ((s.fifo sel).head = none ∨ (s.fifo sel).tail = none → exec (.fTrypush sel b) s = .fault .uninitialisedRead) ∧
      ∀ h t, (s.fifo sel).head = some h → (s.fifo sel).tail = some t →
        (nextIndex (s.params.size sel) h = t →
          exec (.fTrypush sel b) s = .next { s with mres := s.mres ++ [0x0000], mpc := s.mpc + 1 }) ∧
        (nextIndex (s.params.size sel) h ≠ t →
          exec (.fTrypush sel b) s =
            .next { s.setFifo sel
                      { buf := (s.fifo sel).buf.write (nextIndex (s.params.size sel) h) b,
                        head := some (nextIndex (s.params.size sel) h), tail := some t } with
                    mres := s.mres ++ [0x0001], mpc := s.mpc + 1 }))

/-- R123: F.TRYPOP (`0x3000 | sel << 11`), admitted, on an empty FIFO returns 0x0100 and changes nothing else; on another it advances `tail`
and returns the byte at the new tail. Before the first reset it faults; outside R120 it is refused. -/
def Obligations.FTrypopTakesOldestOrReportsEmpty : Prop :=
  ∀ (sel : Sel) (s : State),
    decodeWord (0x3000 ||| selBits sel) = some (.fTrypop sel) ∧
    (sel = .tx → s.gie = true → s.txie = true → exec (.fTrypop sel) s = .refused .roleViolation) ∧
    (sel = .rx ∨ s.gie = false ∨ s.txie = false →
      ((s.fifo sel).head = none ∨ (s.fifo sel).tail = none → exec (.fTrypop sel) s = .fault .uninitialisedRead) ∧
      ∀ h t, (s.fifo sel).head = some h → (s.fifo sel).tail = some t →
        (h = t → exec (.fTrypop sel) s = .next { s with mres := s.mres ++ [0x0100], mpc := s.mpc + 1 }) ∧
        (∀ b, h ≠ t → (s.fifo sel).buf.read (nextIndex (s.params.size sel) t) = some b →
          exec (.fTrypop sel) s =
            .next { s.setFifo sel { s.fifo sel with tail := some (nextIndex (s.params.size sel) t) } with
                    mres := s.mres ++ [b.setWidth 16], mpc := s.mpc + 1 }))

/-- R124: F.PEEK (`0x4000 | sel << 11`) returns the byte a pop would return, or 0x0100; it is admitted in every state and writes nothing but
the result trace and `mpc`. Before the first reset it faults. -/
def Obligations.FPeekShowsOldest : Prop :=
  ∀ (sel : Sel) (s : State),
    decodeWord (0x4000 ||| selBits sel) = some (.fPeek sel) ∧
    ((s.fifo sel).head = none ∨ (s.fifo sel).tail = none → exec (.fPeek sel) s = .fault .uninitialisedRead) ∧
    ∀ h t, (s.fifo sel).head = some h → (s.fifo sel).tail = some t →
      (h = t → exec (.fPeek sel) s = .next { s with mres := s.mres ++ [0x0100], mpc := s.mpc + 1 }) ∧
      (∀ b, h ≠ t → (s.fifo sel).buf.read (nextIndex (s.params.size sel) t) = some b →
        exec (.fPeek sel) s = .next { s with mres := s.mres ++ [b.setWidth 16], mpc := s.mpc + 1 })

/-- R125: F.AVAIL (`0x5000 | sel << 11`) returns `(N_f + head - tail) & mask_f`; it is admitted in every state and writes nothing but the
result trace and `mpc`. Before the first reset it faults. -/
def Obligations.FAvailReturnsCount : Prop :=
  ∀ (sel : Sel) (s : State),
    decodeWord (0x5000 ||| selBits sel) = some (.fAvail sel) ∧
    ((s.fifo sel).head = none ∨ (s.fifo sel).tail = none → exec (.fAvail sel) s = .fault .uninitialisedRead) ∧
    ∀ h t, (s.fifo sel).head = some h → (s.fifo sel).tail = some t →
      exec (.fAvail sel) s =
        .next { s with mres := s.mres ++ [BitVec.ofNat 16 ((s.params.size sel + h - t) &&& (s.params.size sel - 1))],
                       mpc := s.mpc + 1 }

/-- R126: F.FLUSH (`0x6000 | sel << 11`), admitted, sets `tail` to `head`, leaves storage and `last_error` alone and returns nothing. Before
the first reset it faults; outside R120 it is refused. -/
def Obligations.FFlushSetsTailToHead : Prop :=
  ∀ (sel : Sel) (s : State),
    decodeWord (0x6000 ||| selBits sel) = some (.fFlush sel) ∧
    (sel = .tx → s.gie = true → s.txie = true → exec (.fFlush sel) s = .refused .roleViolation) ∧
    (sel = .rx ∨ s.gie = false ∨ s.txie = false →
      ((s.fifo sel).head = none → exec (.fFlush sel) s = .fault .uninitialisedRead) ∧
      ∀ h, (s.fifo sel).head = some h →
        exec (.fFlush sel) s =
          .next { s.setFifo sel { s.fifo sel with tail := some h } with mpc := s.mpc + 1 })

/-- R120: which FIFO instructions are refused for the role: none that only reads; the others exactly outside the main agent's role while
`gie = 1` and the other party's handler is enabled. Each that completes does `mpc <- mpc + 1`, and each that reads an index
that holds no value faults where it is admitted. -/
def Obligations.RoleViolationExactlyOutsideAdmission : Prop :=
  ∀ (sel : Sel) (b : Byte) (s : State),
    (exec (.fReset sel) s = .refused .roleViolation ↔ s.gie = true ∧ s.handlerEnable sel = true) ∧
    (exec (.fTrypush sel b) s = .refused .roleViolation ↔ sel = .rx ∧ s.gie = true ∧ s.rxie = true) ∧
    (exec (.fTrypop sel) s = .refused .roleViolation ↔ sel = .tx ∧ s.gie = true ∧ s.txie = true) ∧
    (exec (.fFlush sel) s = .refused .roleViolation ↔ sel = .tx ∧ s.gie = true ∧ s.txie = true) ∧
    exec (.fPeek sel) s ≠ .refused .roleViolation ∧ exec (.fAvail sel) s ≠ .refused .roleViolation ∧
    (∀ i ∈ [Instr.fReset sel, .fTrypush sel b, .fTrypop sel, .fPeek sel, .fAvail sel, .fFlush sel],
      ∀ t, exec i s = .next t → t.mpc = s.mpc + 1) ∧
    (∀ i ∈ [Instr.fTrypush sel b, .fTrypop sel, .fPeek sel, .fAvail sel, .fFlush sel],
      (s.fifo sel).head = none → exec i s = .fault .uninitialisedRead ∨ exec i s = .refused .roleViolation)

/-- What the format F instructions leave unchanged (R36): everything but the named instance, the result trace and `mpc`; of that
instance, storage but the slot F.TRYPUSH stores to, `head` but for F.RESET and F.TRYPUSH, `tail` but for F.RESET, F.TRYPOP and F.FLUSH. -/
def Obligations.FifoInstructionsFrame : Prop :=
  ∀ (sel : Sel) (b : Byte) (i : Instr) (s t : State),
    i ∈ [.fReset sel, .fTrypush sel b, .fTrypop sel, .fPeek sel, .fAvail sel, .fFlush sel] →
    exec i s = .next t →
    sameUart s t ∧ sameSection s t ∧ sameRun s t ∧ t.lastError = s.lastError ∧ t.mphase = s.mphase ∧
    t.mtmp = s.mtmp ∧ t.wireOut = s.wireOut ∧ t.draws = s.draws ∧ t.mpc = s.mpc + 1 ∧
    t.fifo (otherFifo sel) = s.fifo (otherFifo sel) ∧
    (i ≠ .fTrypush sel b → sameStorage sel s t) ∧
    (i = .fTrypush sel b → ∀ h, (s.fifo sel).head = some h →
      sameStorageBut (nextIndex (s.params.size sel) h) sel s t) ∧
    (i ∈ [.fTrypop sel, .fPeek sel, .fAvail sel, .fFlush sel] → (t.fifo sel).head = (s.fifo sel).head) ∧
    (i ∈ [.fTrypush sel b, .fPeek sel, .fAvail sel] → (t.fifo sel).tail = (s.fifo sel).tail) ∧
    (i ∈ [.fReset sel, .fFlush sel] → t.mres = s.mres)

/-! ## The transport's commands (41_transport_api.md, 43_baud_generator.md) -/

/-- R141, R170, R171: INIT (`0x8000`), where it is admitted, resets both FIFOs' indices, programs the baud fields, clears `last_error`, sets
`rxie` and clears `txie`, and nothing else; where it is not, it is refused. The quotient is written exactly, never wrapped. Which
refusal is named where both tests fail is the model's choice (log entry 6) and is not stated. -/
def Obligations.InitBringsTransportUp : Prop :=
  ∀ s : State,
    decodeWord 0x8000 = some .init ∧
    (s.gie = false ∨ (s.rxie = false ∧ s.txie = false) → 0 < s.params.baud →
      s.params.fClk / s.params.baud < 2 ^ 16 →
      exec .init s =
        .next { s with
          rx := { s.rx with head := some 0, tail := some 0 }, tx := { s.tx with head := some 0, tail := some 0 },
          brdiv := some (BitVec.ofNat 16 (s.params.fClk / s.params.baud)),
          brmod := some (Config.modLookup (s.params.fClk % s.params.baud) s.params.baud),
          lastError := .none, txie := false, rxie := true, mpc := s.mpc + 1 } ∧
      (BitVec.ofNat 16 (s.params.fClk / s.params.baud)).toNat = s.params.fClk / s.params.baud) ∧
    (s.gie = true → (s.rxie = true ∨ s.txie = true) → 0 < s.params.baud →
      s.params.fClk / s.params.baud < 2 ^ 16 → exec .init s = .refused .initWithHandlersLive) ∧
    (s.gie = false ∨ (s.rxie = false ∧ s.txie = false) →
      s.params.baud = 0 ∨ 2 ^ 16 ≤ s.params.fClk / s.params.baud → exec .init s = .refused .baudOutOfRange) ∧
    (s.gie = true → (s.rxie = true ∨ s.txie = true) →
      s.params.baud = 0 ∨ 2 ^ 16 ≤ s.params.fClk / s.params.baud →
      exec .init s = .refused .initWithHandlersLive ∨ exec .init s = .refused .baudOutOfRange)

/-- R142: PUT (`0x9000 | imm8`). The attempt queues the byte if there is room and goes on to phase 1; on a full FIFO it changes nothing at
all; before INIT it faults. The kick sets `txifg` and `txie` if `txie` was 0, returns the byte and completes the command. -/
def Obligations.PutQueuesWaitsAndKicks : Prop :=
  ∀ (b : Byte) (s : State),
    decodeWord (0x9000 ||| b.setWidth 16) = some (.put b) ∧
    (s.mphase = .zero → s.tx.head = none ∨ s.tx.tail = none → exec (.put b) s = .fault .uninitialisedRead) ∧
    (∀ h t, s.mphase = .zero → s.tx.head = some h → s.tx.tail = some t →
      (nextIndex (s.params.size .tx) h ≠ t →
        exec (.put b) s =
          .next { s with
            tx := { buf := s.tx.buf.write (nextIndex (s.params.size .tx) h) b,
                    head := some (nextIndex (s.params.size .tx) h), tail := some t },
            mphase := .one }) ∧
      (nextIndex (s.params.size .tx) h = t → exec (.put b) s = .next s)) ∧
    (s.mphase = .one → s.txie = false →
      exec (.put b) s =
        .next { s with txifg := true, txie := true, mres := s.mres ++ [b.setWidth 16], mphase := .zero,
                       mpc := s.mpc + 1 }) ∧
    (s.mphase = .one → s.txie = true →
      exec (.put b) s =
        .next { s with mres := s.mres ++ [b.setWidth 16], mphase := .zero, mpc := s.mpc + 1 })

/-- R144: GET (`0xA000`). The pop on an empty FIFO returns 0x0100 and completes, `last_error` untouched; otherwise it takes the oldest byte
and goes on to phase 1, which returns the byte with the code of `last_error` in bits 11:8 (R98, R99), clears `last_error` and
completes. Before INIT it faults. -/
def Obligations.GetTakesOldestWithError : Prop :=
  ∀ s : State,
    decodeWord 0xA000 = some .get ∧
    (s.mphase = .zero → s.rx.head = none ∨ s.rx.tail = none → exec .get s = .fault .uninitialisedRead) ∧
    (∀ h t, s.mphase = .zero → s.rx.head = some h → s.rx.tail = some t →
      (h = t → exec .get s = .next { s with mres := s.mres ++ [0x0100], mpc := s.mpc + 1 }) ∧
      (∀ b, h ≠ t → s.rx.buf.read (nextIndex (s.params.size .rx) t) = some b →
        exec .get s =
          .next { s with rx := { s.rx with tail := some (nextIndex (s.params.size .rx) t) }, mtmp := some b,
                         mphase := .one })) ∧
    (∀ b, s.mphase = .one → s.mtmp = some b →
      exec .get s =
        .next { s with
          mres := s.mres ++ [s.lastError.code.setWidth 16 <<< 8 ||| b.setWidth 16],
          lastError := .none, mphase := .zero, mpc := s.mpc + 1 })

/-- R99, R98: the codes, and the words they make with a byte: at most one bit of the code is set, bits 15:12 are zero, the byte stands in
bits 7:0. -/
def Obligations.ResultWordsPackCodeAndByte : Prop :=
  (ErrorKind.none.code = 0#4 ∧ ErrorKind.noData.code = 1#4 ∧ ErrorKind.bufOvf.code = 2#4 ∧
    ErrorKind.overrun.code = 4#4 ∧ ErrorKind.frame.code = 8#4) ∧
  ∀ (e : ErrorKind) (b : Byte),
    (statusWord e b).extractLsb' 12 4 = 0#4 ∧ (statusWord e b).extractLsb' 8 4 = e.code ∧
    (statusWord e b).extractLsb' 0 8 = b ∧ noDataWord = 0x0100#16 ∧ zext16 b = statusWord .none b

/-- R145: PEEK (`0xB000`) returns the oldest byte with the code of `last_error` shown, or 0x0100, and writes nothing but the result trace
and `mpc`. Before INIT it faults. -/
def Obligations.PeekShowsErrorWithoutClearing : Prop :=
  ∀ s : State,
    decodeWord 0xB000 = some .peek ∧
    (s.rx.head = none ∨ s.rx.tail = none → exec .peek s = .fault .uninitialisedRead) ∧
    ∀ h t, s.rx.head = some h → s.rx.tail = some t →
      (h = t → exec .peek s = .next { s with mres := s.mres ++ [0x0100], mpc := s.mpc + 1 }) ∧
      (∀ b, h ≠ t → s.rx.buf.read (nextIndex (s.params.size .rx) t) = some b →
        exec .peek s =
          .next { s with mres := s.mres ++ [s.lastError.code.setWidth 16 <<< 8 ||| b.setWidth 16],
                         mpc := s.mpc + 1 })

/-- R145: PEEK returns exactly the word the next GET would return if no other agent stepped in between. -/
def Obligations.PeekAgreesWithNextGet : Prop :=
  ∀ s p u : State, s.mphase = .zero → exec .peek s = .next p → exec .get s = .next u →
    (u.mphase = .zero ∧ u.mres = p.mres) ∨
    (u.mphase = .one ∧ ∃ v, exec .get u = .next v ∧ v.mres = p.mres ∧ v.mpc = p.mpc)

/-- R146, R147: AVAIL (`0xC000`) returns the count of the receive FIFO; FLUSH (`0xD000`) sets its `tail` to `head`; neither touches anything
else. Before INIT they fault. -/
def Obligations.AvailAndFlushWorkOnRx : Prop :=
  ∀ s : State,
    decodeWord 0xC000 = some .avail ∧ decodeWord 0xD000 = some .flush ∧
    (s.rx.head = none → exec .avail s = .fault .uninitialisedRead ∧ exec .flush s = .fault .uninitialisedRead) ∧
    (∀ h t, s.rx.head = some h → s.rx.tail = some t →
      exec .avail s =
        .next { s with mres := s.mres ++ [BitVec.ofNat 16 ((s.params.size .rx + h - t) &&& (s.params.size .rx - 1))],
                       mpc := s.mpc + 1 }) ∧
    ∀ h, s.rx.head = some h →
      exec .flush s = .next { s with rx := { s.rx with tail := some h }, mpc := s.mpc + 1 }

/-- What the transport's commands leave unchanged (R36, R167). PUT writes of the TX FIFO the slot after `head` and `head`, and the flags of
the kick; GET and FLUSH write of the RX FIFO `tail`; PEEK and AVAIL write no FIFO; INIT writes no slot. -/
def Obligations.TransportCommandsFrame : Prop :=
  ∀ (b : Byte) (s t : State),
    (exec (.put b) s = .next t →
      t.rx = s.rx ∧ t.tx.tail = s.tx.tail ∧ t.lastError = s.lastError ∧ t.rxbuf = s.rxbuf ∧ t.rxfe = s.rxfe ∧
      t.rxoe = s.rxoe ∧ t.rxifg = s.rxifg ∧ t.rxie = s.rxie ∧ t.txbuf = s.txbuf ∧ t.brdiv = s.brdiv ∧
      t.brmod = s.brmod ∧ sameSection s t ∧ sameRun s t ∧ t.mtmp = s.mtmp ∧ t.wireOut = s.wireOut ∧
      t.draws = s.draws ∧
      (s.mphase = .zero → t.txifg = s.txifg ∧ t.txie = s.txie ∧
        ∀ h, s.tx.head = some h → sameStorageBut (nextIndex (s.params.size .tx) h) .tx s t) ∧
      (s.mphase = .one → t.tx = s.tx)) ∧
    (∀ i ∈ [Instr.get, .peek, .avail, .flush], exec i s = .next t →
      t.tx = s.tx ∧ t.rx.head = s.rx.head ∧ sameStorage .rx s t ∧ sameUart s t ∧ sameSection s t ∧ sameRun s t ∧
      t.wireOut = s.wireOut ∧ t.draws = s.draws ∧
      (i ≠ .get → t.lastError = s.lastError ∧ t.mphase = s.mphase ∧ t.mtmp = s.mtmp) ∧
      (i = .peek ∨ i = .avail → t.rx = s.rx)) ∧
    (exec .init s = .next t →
      sameStorage .rx s t ∧ sameStorage .tx s t ∧ sameSection s t ∧ sameRun s t ∧ t.rxbuf = s.rxbuf ∧
      t.rxfe = s.rxfe ∧ t.rxoe = s.rxoe ∧ t.rxifg = s.rxifg ∧ t.txbuf = s.txbuf ∧ t.txifg = s.txifg ∧
      t.mphase = s.mphase ∧ t.mtmp = s.mtmp ∧ t.mres = s.mres ∧ t.wireOut = s.wireOut ∧ t.draws = s.draws)

/-! ## The scoped atomic section (42_atomic_section.md) -/

/-- R161, R162: an entry (`0xE000`, `0xE001`) captures `gie` on the stack and forces it to 0 (ATOMIC) or 1 (NONATOMIC), and writes nothing
else but `mpc`. -/
def Obligations.AtomEnterCapturesAndForces : Prop :=
  ∀ s : State,
    decodeWord 0xE000 = some .atomEnterAtomic ∧ decodeWord 0xE001 = some .atomEnterNonatomic ∧
    exec .atomEnterAtomic s =
      .next { s with atomStack := s.gie :: s.atomStack, gie := false, mpc := s.mpc + 1 } ∧
    exec .atomEnterNonatomic s =
      .next { s with atomStack := s.gie :: s.atomStack, gie := true, mpc := s.mpc + 1 }

/-- R163 to R165: an exit (`0xF000`, `0xF001`, `0xF002`) drops the innermost captured bit and sets `gie` to it (RESTORE), to 1 (ON) or to 0
(OFF), and writes nothing else but `mpc`; with no section open each is refused. -/
def Obligations.AtomExitPopsAndSets : Prop :=
  ∀ s : State,
    decodeWord 0xF000 = some .atomExitRestore ∧ decodeWord 0xF001 = some .atomExitOn ∧
    decodeWord 0xF002 = some .atomExitOff ∧
    (∀ c rest, s.atomStack = c :: rest →
      exec .atomExitRestore s = .next { s with atomStack := rest, gie := c, mpc := s.mpc + 1 } ∧
      exec .atomExitOn s = .next { s with atomStack := rest, gie := true, mpc := s.mpc + 1 } ∧
      exec .atomExitOff s = .next { s with atomStack := rest, gie := false, mpc := s.mpc + 1 }) ∧
    (s.atomStack = [] →
      exec .atomExitRestore s = .refused .unbalancedAtomicSection ∧
      exec .atomExitOn s = .refused .unbalancedAtomicSection ∧
      exec .atomExitOff s = .refused .unbalancedAtomicSection)

/-- R160, R163: a section of either kind closed by RESTORE puts `gie` back to its value before the entry, whatever happened inside, if the
stack is at the exit as the entry left it. -/
def Obligations.SectionRestoresGie : Prop :=
  ∀ (enter : Instr) (s t u v : State), enter ∈ [Instr.atomEnterAtomic, .atomEnterNonatomic] →
    exec enter s = .next t → u.atomStack = t.atomStack → exec .atomExitRestore u = .next v →
    v.gie = s.gie ∧ v.atomStack = s.atomStack

/-- R167, R30: `gie` and the stack are moved by the five atomic-section instructions only, whoever steps. -/
def Obligations.GieMovedOnlyByAtomicSections : Prop :=
  ∀ (i : Instr) (s t : State), exec i s = .next t → ¬ sameSection s t →
    i.format = .a ∨ (i = .evMstep ∧ ∃ c, s.command = some c ∧ c.format = .a)

/-! ## Handlers and environment (60_exceptions.md) -/

/-- R206, R208: RXISR (`0x7200`), where it is enabled, clears `rxifg`; on a full FIFO it drops the byte and latches BUF_OVF whatever the
status; with room it pushes the byte and latches FRAME, OVERRUN, either of them if both bits are set, or nothing. -/
def Obligations.RxisrPushesOrDrops : Prop :=
  decodeWord 0x7200 = some .evRxisr ∧
  ∀ (s : State) (b : Byte) (fe oe : Bool) (h t : Nat),
    s.gie = true → s.rxie = true → s.rxifg = true →
    s.rxbuf = some b → s.rxfe = some fe → s.rxoe = some oe → s.rx.head = some h → s.rx.tail = some t →
    (nextIndex (s.params.size .rx) h = t →
      exec .evRxisr s = .next { s with rxifg := false, lastError := .bufOvf }) ∧
    (nextIndex (s.params.size .rx) h ≠ t →
      ∃ e d, exec .evRxisr s =
        .next { s with
          rxifg := false,
          rx := { buf := s.rx.buf.write (nextIndex (s.params.size .rx) h) b,
                  head := some (nextIndex (s.params.size .rx) h), tail := some t },
          lastError := e, draws := d } ∧
      (fe = true → oe = true → e = .frame ∨ e = .overrun) ∧
      (fe = true → oe = false → e = .frame) ∧
      (fe = false → oe = true → e = .overrun) ∧
      (fe = false → oe = false → e = s.lastError) ∧
      (fe = false ∨ oe = false → d = s.draws))

/-- R207: TXISR (`0x7300`), where it is enabled, sends the oldest byte, or with an empty FIFO clears `txie` and leaves `txifg` set. -/
def Obligations.TxisrSendsOrSwitchesOff : Prop :=
  decodeWord 0x7300 = some .evTxisr ∧
  ∀ (s : State) (h t : Nat),
    s.gie = true → s.txie = true → s.txifg = true → s.tx.head = some h → s.tx.tail = some t →
    (h = t → exec .evTxisr s = .next { s with txie := false }) ∧
    (∀ b, h ≠ t → s.tx.buf.read (nextIndex (s.params.size .tx) t) = some b →
      exec .evTxisr s =
        .next { s with
          tx := { s.tx with tail := some (nextIndex (s.params.size .tx) t) }, txbuf := some b,
          wireOut := s.wireOut ++ [b], txifg := false })

/-- R214, R215: RXARRIVE (`0x7800 | oe << 9 | fe << 8 | b`) writes the receive register with its status and sets `rxifg`, in every state;
TXREADY (`0x7100`), enabled iff `txifg = 0`, sets it. Nothing else changes. That TXREADY with `txifg = 1`, no legal step by R104, is
the refusal `agentNotEnabled` is the model's choice (log entry 7). -/
def Obligations.EnvironmentEventsSetFlags : Prop :=
  ∀ s : State,
    (∀ b fe oe,
      decodeWord (0x7800 ||| oeBits oe ||| feBits fe ||| b.setWidth 16) = some (.evRxarrive b fe oe) ∧
      exec (.evRxarrive b fe oe) s =
        .next { s with rxbuf := some b, rxfe := some fe, rxoe := some oe, rxifg := true }) ∧
    decodeWord 0x7100 = some .evTxready ∧
    (s.txifg = false → exec .evTxready s = .next { s with txifg := true }) ∧
    (s.txifg = true → exec .evTxready s = .refused .agentNotEnabled)

/-- What the handlers leave unchanged (R205, R36): the main agent's state, `gie`, the parameters, the other direction, and of their own FIFO
the index of the other side and every slot but the one RXISR pushes to. -/
def Obligations.HandlersFrame : Prop :=
  ∀ s t : State,
    (exec .evRxisr s = .next t →
      sameMain s t ∧ t.gie = s.gie ∧ sameRun s t ∧ t.tx = s.tx ∧ t.txbuf = s.txbuf ∧ t.txifg = s.txifg ∧
      t.txie = s.txie ∧ t.wireOut = s.wireOut ∧ t.brdiv = s.brdiv ∧ t.brmod = s.brmod ∧ t.rxie = s.rxie ∧
      t.rxbuf = s.rxbuf ∧ t.rxfe = s.rxfe ∧ t.rxoe = s.rxoe ∧ t.rx.tail = s.rx.tail ∧
      ∀ h, s.rx.head = some h → sameStorageBut (nextIndex (s.params.size .rx) h) .rx s t) ∧
    (exec .evTxisr s = .next t →
      sameMain s t ∧ t.gie = s.gie ∧ sameRun s t ∧ t.rx = s.rx ∧ t.lastError = s.lastError ∧
      t.rxbuf = s.rxbuf ∧ t.rxfe = s.rxfe ∧ t.rxoe = s.rxoe ∧ t.rxifg = s.rxifg ∧ t.rxie = s.rxie ∧
      t.brdiv = s.brdiv ∧ t.brmod = s.brmod ∧ t.draws = s.draws ∧ t.tx.head = s.tx.head ∧ sameStorage .tx s t)

/-- R204: with both handlers able to run, either order gives the same state (95_test_vectors.md V7.4). -/
def Obligations.HandlersCommute : Prop :=
  ∀ s s₁ s₂ : State, exec .evRxisr s = .next s₁ → exec .evTxisr s = .next s₂ →
    ∃ u, exec .evTxisr s₁ = .next u ∧ exec .evRxisr s₂ = .next u

/-! ## The main agent's step (41_transport_api.md R140) -/

/-- R140, R148: in every state the invariant allows, with both FIFOs reset once, the main agent's step on a command that its rule admits
completes in the command's own next state; no command traps. -/
def Obligations.AdmittedMainStepCompletes : Prop :=
  ∀ (s : State) (c : Instr), s.Inv → s.rx.started → s.tx.started → s.command = some c →
    commandAdmitted c s → ∃ t, exec c s = .next t ∧ exec .evMstep s = .next t

/-- R140, R35, R149: a main step completes its command and advances `mpc` by one, or stays within a PUT or a GET in phase 0. Only a PUT that
found the TX FIFO full is repeated. -/
def Obligations.MpcStaysOnlyInTwoPhaseCommands : Prop :=
  ∀ s t : State, exec .evMstep s = .next t →
    t.mpc = s.mpc + 1 ∨
    (t.mpc = s.mpc ∧ s.mphase = .zero ∧
      ((∃ b, s.command = some (.put b) ∧ (t = s ∨ t.mphase = .one)) ∨ (s.command = some .get ∧ t.mphase = .one)))

/-- R142, R243: with `gie = 0`, a PUT whose attempt finds the TX FIFO full never gets past it: the main agent's step is a failed attempt that
changes nothing, and whatever agent steps, the next state is again such a state. It is a hang, no fault. -/
def Obligations.PutHangsWithInterruptsOff : Prop :=
  ∀ (s : State) (b : Byte) (h tl : Nat),
    s.gie = false → s.command = some (.put b) → s.mphase = .zero →
    s.tx.head = some h → s.tx.tail = some tl → nextIndex (s.params.size .tx) h = tl →
    exec .evMstep s = .next s ∧
    ∀ (i : Instr) (t : State), i.isEvent = true → exec i s = .next t →
      t.gie = false ∧ t.command = some (.put b) ∧ t.mphase = .zero ∧ t.tx = s.tx ∧ t.params = s.params ∧
      t.mpc = s.mpc ∧ t.mres = s.mres

/-! ## Who writes what (10_state.md R36) -/

/-- R25, R209: `last_error` is changed by RXISR, by GET's phase 1 and by INIT only, and the last two leave it NONE. -/
def Obligations.LastErrorWriters : Prop :=
  ∀ (i : Instr) (s t : State), i.isEvent = true → exec i s = .next t → t.lastError ≠ s.lastError →
    i = .evRxisr ∨
    (i = .evMstep ∧ t.lastError = .none ∧
      (s.command = some .init ∨ (s.command = some .get ∧ s.mphase = .one)))

/-- R27, R34, R207: the wire trace and `txbuf` are written by TXISR only, which appends one byte, and only when `txifg = 1`, so no byte is
written over one the transmitter has not taken (R212). -/
def Obligations.WireGrowsOnlyByTxisr : Prop :=
  ∀ (i : Instr) (s t : State), exec i s = .next t →
    (t.wireOut = s.wireOut ∧ t.txbuf = s.txbuf) ∨
    (i = .evTxisr ∧ s.txifg = true ∧ t.txifg = false ∧
      ∃ b, t.wireOut = s.wireOut ++ [b] ∧ t.txbuf = some b)

/-! ## The FIFO as a queue (10_state.md R39, 40_ring_buffer.md R127 to R129) -/

/-- R61: `(i + 1) & mask = (i + 1) mod N`, always in range, 0 after `N - 1`; and the count is the difference modulo `N` (R129). -/
def Obligations.SlotArithmetic : Prop :=
  ∀ e i h t : Nat,
    nextIndex (2 ^ (e + 1)) i = (i + 1) % 2 ^ (e + 1) ∧ nextIndex (2 ^ (e + 1)) i < 2 ^ (e + 1) ∧
    nextIndex (2 ^ (e + 1)) (2 ^ (e + 1) - 1) = 0 ∧
    countBetween (2 ^ (e + 1)) h t = (2 ^ (e + 1) + h - t) % 2 ^ (e + 1)

/-- R39: what each FIFO function does to the contents. -/
def Obligations.FifoFunctionsOnContents : Prop :=
  ∀ (e : Nat) (f : Fifo) (b : Byte), f.Valid (2 ^ (e + 1)) → f.started →
    f.reset.contents (2 ^ (e + 1)) = [] ∧
    (∃ g, f.flush = .ok g ∧ g.contents (2 ^ (e + 1)) = []) ∧
    ((∃ g, f.tryPush (2 ^ (e + 1)) b = .ok (true, g) ∧
        g.contents (2 ^ (e + 1)) = f.contents (2 ^ (e + 1)) ++ [b] ∧
        (f.contents (2 ^ (e + 1))).length < 2 ^ (e + 1) - 1) ∨
      (f.tryPush (2 ^ (e + 1)) b = .ok (false, f) ∧ (f.contents (2 ^ (e + 1))).length = 2 ^ (e + 1) - 1)) ∧
    ((f.tryPop (2 ^ (e + 1)) = .ok (none, f) ∧ f.contents (2 ^ (e + 1)) = []) ∨
      (∃ c g, f.tryPop (2 ^ (e + 1)) = .ok (some c, g) ∧
        f.contents (2 ^ (e + 1)) = c :: g.contents (2 ^ (e + 1)))) ∧
    f.peek (2 ^ (e + 1)) = .ok (f.contents (2 ^ (e + 1))).head? ∧
    f.available (2 ^ (e + 1)) = .ok (f.contents (2 ^ (e + 1))).length ∧
    (f.contents (2 ^ (e + 1))).length ≤ 2 ^ (e + 1) - 1

/-- R127: the FIFO law. Whatever calls are made, they all answer; the bytes popped followed by the bytes left are the bytes held at the
start followed by the bytes of the successful pushes; a push fails exactly when the count is `N - 1`, a pop returns nothing
exactly when it is 0. -/
def Obligations.FifoLaw : Prop :=
  ∀ (e : Nat) (f : Fifo), f.Valid (2 ^ (e + 1)) → f.started →
    (∀ calls, ∃ popped pushed g, f.play (2 ^ (e + 1)) calls = .ok (popped, pushed, g) ∧
      popped ++ g.contents (2 ^ (e + 1)) = f.contents (2 ^ (e + 1)) ++ pushed ∧
      g.Valid (2 ^ (e + 1)) ∧ g.started) ∧
    (∀ b, f.tryPush (2 ^ (e + 1)) b = .ok (false, f) ↔ f.available (2 ^ (e + 1)) = .ok (2 ^ (e + 1) - 1)) ∧
    (f.tryPop (2 ^ (e + 1)) = .ok (none, f) ↔ f.available (2 ^ (e + 1)) = .ok 0)

/-- R128: the capacity law. From an empty FIFO `N - 1` pushes in a row succeed and the next returns false; on the receive path a byte taken
by the handler while `N - 1` are held sets BUF_OVF and is dropped. -/
def Obligations.CapacityLaw : Prop :=
  (∀ (e : Nat) (f : Fifo) (bs : List Byte) (b : Byte), f.Valid (2 ^ (e + 1)) → f.started →
    f.contents (2 ^ (e + 1)) = [] → bs.length = 2 ^ (e + 1) - 1 →
    ∃ g, f.play (2 ^ (e + 1)) (bs.map .push) = .ok ([], bs, g) ∧ g.contents (2 ^ (e + 1)) = bs ∧
      g.tryPush (2 ^ (e + 1)) b = .ok (false, g)) ∧
  ∀ s : State, s.Inv → s.rx.started → s.rxisrEnabled = true →
    (s.contents .rx).length = s.params.size .rx - 1 →
    exec .evRxisr s = .next { s with rxifg := false, lastError := .bufOvf }

/-! ## Invariants -/

/-- The invariant of the reachable states and R212's hold at reset, for any parameters and either draw of `txifg`. -/
def Obligations.ResetMeetsInvariants : Prop :=
  ∀ (p : Params) (b : Bool),
    (State.powerOn p b).Inv ∧ (State.powerOn p b).kickInv ∧ State.reset.Inv ∧ State.reset.kickInv

/-- Every step of every agent, under every program and schedule, keeps the invariant: storage canonical and in range, indices in range and
only over slots that hold a value (R23, R129), sources enabled only over a FIFO that was reset, a pending byte in the receive
register (R28), `last_error` never NO_DATA (R25), `mpc` within the program (R35), `mphase` 1 only within a PUT or GET (R33). -/
def Obligations.StepKeepsInvariant : Prop :=
  ∀ s t : State, s.Inv → step s = .next t → t.Inv

/-- R23, R148: once both FIFOs have been reset no step faults, and they stay so. -/
def Obligations.NoFaultOnceFifosReset : Prop :=
  ∀ s : State, s.Inv → s.rx.started → s.tx.started →
    noFault (step s) ∧ ∀ t, step s = .next t → t.rx.started ∧ t.tx.started

/-- R212: under a program that writes the TX FIFO through INIT, PUT and PUTS only, every step keeps: `txie = 0` implies that the TX FIFO is
empty or a PUT is between its two phases. -/
def Obligations.StepKeepsKickInvariant : Prop :=
  ∀ s t : State, s.Inv → txThroughPutOnly s.prog → s.kickInv → step s = .next t → t.kickInv

/-- R142, R207: no byte is sent twice and none is lost. Over any step that does not discard queued bytes, the bytes on the wire followed by
the bytes queued gain byte `b` at the end if the step is a main step on PUT `b` in phase 0 or on F.TRYPUSH TX, `b` that finds
room, and stay as they were otherwise; and PUT goes on to phase 1 exactly where it finds room. -/
def Obligations.NoQueuedByteLostOrRepeated : Prop :=
  ∀ (i : Instr) (s t : State), s.Inv → i.isEvent = true → exec i s = .next t → ¬ eventDiscardsTx i s →
    (∀ b, queuesTx i s b →
      t.wireOut ++ t.contents .tx = s.wireOut ++ s.contents .tx ++ [b]) ∧
    ((∀ b, ¬ queuesTx i s b) → t.wireOut ++ t.contents .tx = s.wireOut ++ s.contents .tx) ∧
    (∀ b, i = .evMstep → s.command = some (.put b) → s.mphase = .zero →
      (t.mphase = .one ↔ s.tx.hasRoom (s.params.size .tx)))

/-! ## Liveness (60_exceptions.md R217) -/

/-- R149, R207, R215: with interrupts on, the transmit source live and the transmitter ready, the schedule that lets TXISR and TXREADY take
turns sends every queued byte, in order. -/
def Obligations.AlternatingScheduleSendsAllQueued : Prop :=
  ∀ (s : State) (n : Nat) (rest : List Word),
    s.tx.Valid (s.params.size .tx) → s.tx.started → s.gie = true → s.txie = true → s.txifg = true →
    (s.contents .tx).length = n → s.sched = (List.replicate n [0x7300#16, 0x7100#16]).flatten ++ rest →
    ∃ t, Host.Core.run Sys2Proof.core (2 * n) s = .next t ∧ t.wireOut = s.wireOut ++ s.contents .tx ∧
      t.contents .tx = [] ∧ t.txifg = true ∧ t.sched = rest

/-- R217, R149: in every run that is weakly fair to TXREADY and TXISR, keeps `gie = 1` and discards no queued byte, every byte queued at
the start with the transmit source live is eventually on the wire, in order. -/
def Obligations.FairRunSendsAllQueued : Prop :=
  ∀ (ev : Nat → Instr) (r : Nat → State), IsRun ev r →
    weaklyFairTo State.txreadyEnabled .evTxready ev r → weaklyFairTo State.txisrEnabled .evTxisr ev r →
    (∀ n, (r n).gie = true) → (∀ n, ¬ eventDiscardsTx (ev n) (r n)) →
    (r 0).Inv → (r 0).txie = true →
    ∃ m, (r 0).wireOut ++ (r 0).contents .tx <+: (r m).wireOut

/-- R217, R149: in every run that is fair as R217 says (TXREADY, both handlers and the main agent; `gie` eventually 1 again), of a program
that writes the TX FIFO through INIT, PUT and PUTS only, from a state of R212's invariant: every queued byte, one that still awaits
its kick included, is eventually on the wire, in order, unless the run discards queued bytes; and a PUT under way, one that finds
the FIFO full included, eventually completes. -/
def Obligations.FairRunSendsQueuedAndCompletesPut : Prop :=
  ∀ (ev : Nat → Instr) (r : Nat → State), IsRun ev r → Fair ev r →
    (r 0).Inv → (r 0).kickInv → txThroughPutOnly (r 0).prog →
    ((∀ n, ¬ eventDiscardsTx (ev n) (r n)) → ∃ m, (r 0).wireOut ++ (r 0).contents .tx <+: (r m).wireOut) ∧
    (∀ b, (r 0).command = some (.put b) → ∃ m, (r m).mpc = (r 0).mpc + 1)

/-- R251: where a run has ended, with bytes still queued or not, neither the main agent nor a handler can step (R104, R203). The refusal
`agentNotEnabled` is the model's way to say that there is no legal step (log entry 7). -/
def Obligations.EndedRunHasNoStepLeft : Prop :=
  ∀ s : State, s.ended →
    exec .evMstep s = .refused .agentNotEnabled ∧ exec .evRxisr s = .refused .agentNotEnabled ∧
    exec .evTxisr s = .refused .agentNotEnabled

/-! ## The line editor, outside the block (49_line_editor_collaborator.md) -/

/-- R180, R185, R7: the editor at init, with `BS_CODE = 0x08` unless another byte outside `0x20 .. 0x7e` is given, is within bounds, and every
byte fed and every drain keeps it so: `0 <= position <= len <= L - 1`, an array of `L` cells, a NUL after a line that is ready. -/
def Obligations.EditorKeepsBounds : Prop :=
  (∀ (capacity : Nat) (bs : Byte), 2 ≤ capacity → ¬ printable bs →
    (editorInit capacity bs).Bounded ∧ (editorInit capacity).Bounded ∧ (editorInit capacity).backspace = 0x08) ∧
  ∀ (e : LineEditor) (c : Byte), e.Bounded → (feed e c).1.Bounded ∧ (drain e).2.Bounded

/-- R185, R186, R192 (Scenario A for every line): printable bytes up to the capacity, then CR, give a ready line equal to them, with a NUL in
the cell after it; each is echoed; draining returns the editor to its initial state but for the bytes left in the cells. -/
def Obligations.EditorReturnsTypedLine : Prop :=
  ∀ (capacity : Nat) (bs : Byte) (cs : List Byte), 2 ≤ capacity → ¬ printable bs → bs ≠ 0x0D →
    (∀ c ∈ cs, printable c) → cs.length ≤ capacity - 1 →
    (feedAll (editorInit capacity bs) (cs ++ [0x0D])).2 = cs ∧
    (feedAll (editorInit capacity bs) (cs ++ [0x0D])).1.line[cs.length]? = some 0x00 ∧
    ∃ e, drain (feedAll (editorInit capacity bs) (cs ++ [0x0D])).1 = (some cs, e) ∧
      { e with line := (editorInit capacity bs).line } = editorInit capacity bs

/-- R183, R186: Backspace undoes the insertion before it, at any cursor position: the line, its length, the cursor and the state tag are as
before, and so is every cell but the one the insertion took after the line's end. -/
def Obligations.EditorBackspaceUndoesInsert : Prop :=
  ∀ (e : LineEditor) (c : Byte), e.Bounded → e.mode = .running → e.len < e.capacity - 1 → printable c →
    (feed (feed e c).1 e.backspace).1.text = e.text ∧
    { (feed (feed e c).1 e.backspace).1 with line := e.line } = e ∧
    ∀ i, i ≠ e.len → (feed (feed e c).1 e.backspace).1.line[i]? = e.line[i]?

/-- R191 to R193: a ready line ignores input, is drained once, and a second drain returns nothing and changes nothing. -/
def Obligations.EditorDrainIsIdempotent : Prop :=
  ∀ e : LineEditor,
    (e.mode = .lineReady → (∀ c, feed e c = (e, [])) ∧
      ∃ e', drain e = (some e.text, e') ∧ e'.text = [] ∧ e'.len = 0 ∧ e'.position = 0 ∧ e'.mode = .running ∧
        drain e' = (none, e')) ∧
    (e.mode ≠ .lineReady → drain e = (none, e))
end

