-- ==== Sys2Proof/Laws/LineEditor.lean ====
section
/-! SUPPORT. What the shared operation on the line editor's array does, and that a printable byte fed to a running editor is
inserted. -/

namespace Sys2Proof.Machine

/-- Moving cells within the array keeps its length. -/
theorem moveCells_length {cells : List Byte} {dst src n : Nat} (hd : dst + n ≤ cells.length) (hs : src + n ≤ cells.length) :
    (moveCells cells dst src n).length = cells.length := by
  simp only [moveCells, List.length_append, List.length_take, List.length_drop]
  omega

/-- Every cell after a move: one of those moved to, or as before. -/
theorem moveCells_getElem? {cells : List Byte} {dst src n : Nat} (hd : dst + n ≤ cells.length) (hs : src + n ≤ cells.length)
    (i : Nat) :
    (moveCells cells dst src n)[i]? = if dst ≤ i ∧ i < dst + n then cells[src + (i - dst)]? else cells[i]? := by
  have h1 : (cells.take dst).length = dst := by simp; omega
  have h2 : ((cells.drop src).take n).length = n := by simp; omega
  unfold moveCells
  rw [List.append_assoc, List.getElem?_append, h1]
  split
  · rw [if_neg (by omega), List.getElem?_take_of_lt ‹_›]
  · rw [List.getElem?_append, h2]
    split
    · rw [if_pos (by omega), List.getElem?_take_of_lt ‹_›, List.getElem?_drop]
    · rw [if_neg (by omega), List.getElem?_drop]
      congr 1
      omega

/-- The line's characters, cell by cell. -/
theorem LineEditor.text_getElem? (e : LineEditor) (i : Nat) : e.text[i]? = if i < e.len then e.line[i]? else none := by
  simp [LineEditor.text, List.getElem?_take]

/-- A printable byte is in no earlier class of R194's order, so it is inserted. -/
theorem feed_printable {e : LineEditor} {c : Byte} (hm : e.mode = .running) (hp : printable c)
    (hb : ¬ printable e.backspace) : feed e c = editInsert e c := by
  have h1 : c ≠ e.backspace := by rintro rfl; exact hb hp
  have h2 : c ≠ 0x1B := by rintro rfl; revert hp; decide
  have h3 : ¬ (c = 0x0D ∨ c = 0x0A) := by rintro (rfl | rfl) <;> revert hp <;> decide
  simp only [feed, hm, feedRunning, h1, h2, h3, if_false]
  rw [if_pos hp]

end Sys2Proof.Machine
end

