-- ==== Sys2Proof/Laws/State.lean ====
section
/-! SUPPORT. The named updates of State, one lemma per field per update, so that no later proof unfolds a record update. -/

namespace Sys2Proof.Machine

/-! ## `State.result` -/

@[simp] theorem State.result_params (s : State) (w : Word) : (s.result w).params = s.params := rfl
@[simp] theorem State.result_rx (s : State) (w : Word) : (s.result w).rx = s.rx := rfl
@[simp] theorem State.result_tx (s : State) (w : Word) : (s.result w).tx = s.tx := rfl
@[simp] theorem State.result_lastError (s : State) (w : Word) : (s.result w).lastError = s.lastError := rfl
@[simp] theorem State.result_rxbuf (s : State) (w : Word) : (s.result w).rxbuf = s.rxbuf := rfl
@[simp] theorem State.result_rxfe (s : State) (w : Word) : (s.result w).rxfe = s.rxfe := rfl
@[simp] theorem State.result_rxoe (s : State) (w : Word) : (s.result w).rxoe = s.rxoe := rfl
@[simp] theorem State.result_rxifg (s : State) (w : Word) : (s.result w).rxifg = s.rxifg := rfl
@[simp] theorem State.result_rxie (s : State) (w : Word) : (s.result w).rxie = s.rxie := rfl
@[simp] theorem State.result_txbuf (s : State) (w : Word) : (s.result w).txbuf = s.txbuf := rfl
@[simp] theorem State.result_txifg (s : State) (w : Word) : (s.result w).txifg = s.txifg := rfl
@[simp] theorem State.result_txie (s : State) (w : Word) : (s.result w).txie = s.txie := rfl
@[simp] theorem State.result_brdiv (s : State) (w : Word) : (s.result w).brdiv = s.brdiv := rfl
@[simp] theorem State.result_brmod (s : State) (w : Word) : (s.result w).brmod = s.brmod := rfl
@[simp] theorem State.result_gie (s : State) (w : Word) : (s.result w).gie = s.gie := rfl
@[simp] theorem State.result_atomStack (s : State) (w : Word) : (s.result w).atomStack = s.atomStack := rfl
@[simp] theorem State.result_mpc (s : State) (w : Word) : (s.result w).mpc = s.mpc := rfl
@[simp] theorem State.result_mphase (s : State) (w : Word) : (s.result w).mphase = s.mphase := rfl
@[simp] theorem State.result_mtmp (s : State) (w : Word) : (s.result w).mtmp = s.mtmp := rfl
@[simp] theorem State.result_mres (s : State) (w : Word) : (s.result w).mres = s.mres ++ [w] := rfl
@[simp] theorem State.result_wireOut (s : State) (w : Word) : (s.result w).wireOut = s.wireOut := rfl
@[simp] theorem State.result_prog (s : State) (w : Word) : (s.result w).prog = s.prog := rfl
@[simp] theorem State.result_sched (s : State) (w : Word) : (s.result w).sched = s.sched := rfl
@[simp] theorem State.result_draws (s : State) (w : Word) : (s.result w).draws = s.draws := rfl

/-! ## `State.advance` -/

@[simp] theorem State.advance_params (s : State) : s.advance.params = s.params := rfl
@[simp] theorem State.advance_rx (s : State) : s.advance.rx = s.rx := rfl
@[simp] theorem State.advance_tx (s : State) : s.advance.tx = s.tx := rfl
@[simp] theorem State.advance_lastError (s : State) : s.advance.lastError = s.lastError := rfl
@[simp] theorem State.advance_rxbuf (s : State) : s.advance.rxbuf = s.rxbuf := rfl
@[simp] theorem State.advance_rxfe (s : State) : s.advance.rxfe = s.rxfe := rfl
@[simp] theorem State.advance_rxoe (s : State) : s.advance.rxoe = s.rxoe := rfl
@[simp] theorem State.advance_rxifg (s : State) : s.advance.rxifg = s.rxifg := rfl
@[simp] theorem State.advance_rxie (s : State) : s.advance.rxie = s.rxie := rfl
@[simp] theorem State.advance_txbuf (s : State) : s.advance.txbuf = s.txbuf := rfl
@[simp] theorem State.advance_txifg (s : State) : s.advance.txifg = s.txifg := rfl
@[simp] theorem State.advance_txie (s : State) : s.advance.txie = s.txie := rfl
@[simp] theorem State.advance_brdiv (s : State) : s.advance.brdiv = s.brdiv := rfl
@[simp] theorem State.advance_brmod (s : State) : s.advance.brmod = s.brmod := rfl
@[simp] theorem State.advance_gie (s : State) : s.advance.gie = s.gie := rfl
@[simp] theorem State.advance_atomStack (s : State) : s.advance.atomStack = s.atomStack := rfl
@[simp] theorem State.advance_mpc (s : State) : s.advance.mpc = s.mpc + 1 := rfl
@[simp] theorem State.advance_mphase (s : State) : s.advance.mphase = s.mphase := rfl
@[simp] theorem State.advance_mtmp (s : State) : s.advance.mtmp = s.mtmp := rfl
@[simp] theorem State.advance_mres (s : State) : s.advance.mres = s.mres := rfl
@[simp] theorem State.advance_wireOut (s : State) : s.advance.wireOut = s.wireOut := rfl
@[simp] theorem State.advance_prog (s : State) : s.advance.prog = s.prog := rfl
@[simp] theorem State.advance_sched (s : State) : s.advance.sched = s.sched := rfl
@[simp] theorem State.advance_draws (s : State) : s.advance.draws = s.draws := rfl

/-! ## `State.setFifo` -/

@[simp] theorem State.setFifo_params (s : State) (sel : Sel) (f : Fifo) : (s.setFifo sel f).params = s.params := by
  cases sel <;> rfl
@[simp] theorem State.setFifo_lastError (s : State) (sel : Sel) (f : Fifo) : (s.setFifo sel f).lastError = s.lastError := by
  cases sel <;> rfl
@[simp] theorem State.setFifo_rxbuf (s : State) (sel : Sel) (f : Fifo) : (s.setFifo sel f).rxbuf = s.rxbuf := by
  cases sel <;> rfl
@[simp] theorem State.setFifo_rxfe (s : State) (sel : Sel) (f : Fifo) : (s.setFifo sel f).rxfe = s.rxfe := by
  cases sel <;> rfl
@[simp] theorem State.setFifo_rxoe (s : State) (sel : Sel) (f : Fifo) : (s.setFifo sel f).rxoe = s.rxoe := by
  cases sel <;> rfl
@[simp] theorem State.setFifo_rxifg (s : State) (sel : Sel) (f : Fifo) : (s.setFifo sel f).rxifg = s.rxifg := by
  cases sel <;> rfl
@[simp] theorem State.setFifo_rxie (s : State) (sel : Sel) (f : Fifo) : (s.setFifo sel f).rxie = s.rxie := by
  cases sel <;> rfl
@[simp] theorem State.setFifo_txbuf (s : State) (sel : Sel) (f : Fifo) : (s.setFifo sel f).txbuf = s.txbuf := by
  cases sel <;> rfl
@[simp] theorem State.setFifo_txifg (s : State) (sel : Sel) (f : Fifo) : (s.setFifo sel f).txifg = s.txifg := by
  cases sel <;> rfl
@[simp] theorem State.setFifo_txie (s : State) (sel : Sel) (f : Fifo) : (s.setFifo sel f).txie = s.txie := by
  cases sel <;> rfl
@[simp] theorem State.setFifo_brdiv (s : State) (sel : Sel) (f : Fifo) : (s.setFifo sel f).brdiv = s.brdiv := by
  cases sel <;> rfl
@[simp] theorem State.setFifo_brmod (s : State) (sel : Sel) (f : Fifo) : (s.setFifo sel f).brmod = s.brmod := by
  cases sel <;> rfl
@[simp] theorem State.setFifo_gie (s : State) (sel : Sel) (f : Fifo) : (s.setFifo sel f).gie = s.gie := by
  cases sel <;> rfl
@[simp] theorem State.setFifo_atomStack (s : State) (sel : Sel) (f : Fifo) : (s.setFifo sel f).atomStack = s.atomStack := by
  cases sel <;> rfl
@[simp] theorem State.setFifo_mpc (s : State) (sel : Sel) (f : Fifo) : (s.setFifo sel f).mpc = s.mpc := by
  cases sel <;> rfl
@[simp] theorem State.setFifo_mphase (s : State) (sel : Sel) (f : Fifo) : (s.setFifo sel f).mphase = s.mphase := by
  cases sel <;> rfl
@[simp] theorem State.setFifo_mtmp (s : State) (sel : Sel) (f : Fifo) : (s.setFifo sel f).mtmp = s.mtmp := by
  cases sel <;> rfl
@[simp] theorem State.setFifo_mres (s : State) (sel : Sel) (f : Fifo) : (s.setFifo sel f).mres = s.mres := by
  cases sel <;> rfl
@[simp] theorem State.setFifo_wireOut (s : State) (sel : Sel) (f : Fifo) : (s.setFifo sel f).wireOut = s.wireOut := by
  cases sel <;> rfl
@[simp] theorem State.setFifo_prog (s : State) (sel : Sel) (f : Fifo) : (s.setFifo sel f).prog = s.prog := by
  cases sel <;> rfl
@[simp] theorem State.setFifo_sched (s : State) (sel : Sel) (f : Fifo) : (s.setFifo sel f).sched = s.sched := by
  cases sel <;> rfl
@[simp] theorem State.setFifo_draws (s : State) (sel : Sel) (f : Fifo) : (s.setFifo sel f).draws = s.draws := by
  cases sel <;> rfl

@[simp] theorem State.setFifo_rx_rx (s : State) (f : Fifo) : (s.setFifo .rx f).rx = f := rfl
@[simp] theorem State.setFifo_rx_tx (s : State) (f : Fifo) : (s.setFifo .rx f).tx = s.tx := rfl
@[simp] theorem State.setFifo_tx_rx (s : State) (f : Fifo) : (s.setFifo .tx f).rx = s.rx := rfl
@[simp] theorem State.setFifo_tx_tx (s : State) (f : Fifo) : (s.setFifo .tx f).tx = f := rfl

/-! ## The instances -/

@[simp] theorem State.fifo_rx (s : State) : s.fifo .rx = s.rx := rfl
@[simp] theorem State.fifo_tx (s : State) : s.fifo .tx = s.tx := rfl
@[simp] theorem State.fifo_setFifo (s : State) (sel : Sel) (f : Fifo) : (s.setFifo sel f).fifo sel = f := by
  cases sel <;> rfl
@[simp] theorem State.fifo_result (s : State) (w : Word) (sel : Sel) : (s.result w).fifo sel = s.fifo sel := by
  cases sel <;> rfl
@[simp] theorem State.fifo_advance (s : State) (sel : Sel) : s.advance.fifo sel = s.fifo sel := by
  cases sel <;> rfl

/-! ## `State.kick` and `State.latchLineError` -/

@[simp] theorem State.kick_params (s : State) : s.kick.params = s.params := by
  unfold State.kick; split <;> rfl
@[simp] theorem State.kick_rx (s : State) : s.kick.rx = s.rx := by
  unfold State.kick; split <;> rfl
@[simp] theorem State.kick_tx (s : State) : s.kick.tx = s.tx := by
  unfold State.kick; split <;> rfl
@[simp] theorem State.kick_lastError (s : State) : s.kick.lastError = s.lastError := by
  unfold State.kick; split <;> rfl
@[simp] theorem State.kick_rxbuf (s : State) : s.kick.rxbuf = s.rxbuf := by
  unfold State.kick; split <;> rfl
@[simp] theorem State.kick_rxfe (s : State) : s.kick.rxfe = s.rxfe := by
  unfold State.kick; split <;> rfl
@[simp] theorem State.kick_rxoe (s : State) : s.kick.rxoe = s.rxoe := by
  unfold State.kick; split <;> rfl
@[simp] theorem State.kick_rxifg (s : State) : s.kick.rxifg = s.rxifg := by
  unfold State.kick; split <;> rfl
@[simp] theorem State.kick_rxie (s : State) : s.kick.rxie = s.rxie := by
  unfold State.kick; split <;> rfl
@[simp] theorem State.kick_txbuf (s : State) : s.kick.txbuf = s.txbuf := by
  unfold State.kick; split <;> rfl
@[simp] theorem State.kick_brdiv (s : State) : s.kick.brdiv = s.brdiv := by
  unfold State.kick; split <;> rfl
@[simp] theorem State.kick_brmod (s : State) : s.kick.brmod = s.brmod := by
  unfold State.kick; split <;> rfl
@[simp] theorem State.kick_gie (s : State) : s.kick.gie = s.gie := by
  unfold State.kick; split <;> rfl
@[simp] theorem State.kick_atomStack (s : State) : s.kick.atomStack = s.atomStack := by
  unfold State.kick; split <;> rfl
@[simp] theorem State.kick_mpc (s : State) : s.kick.mpc = s.mpc := by
  unfold State.kick; split <;> rfl
@[simp] theorem State.kick_mphase (s : State) : s.kick.mphase = s.mphase := by
  unfold State.kick; split <;> rfl
@[simp] theorem State.kick_mtmp (s : State) : s.kick.mtmp = s.mtmp := by
  unfold State.kick; split <;> rfl
@[simp] theorem State.kick_mres (s : State) : s.kick.mres = s.mres := by
  unfold State.kick; split <;> rfl
@[simp] theorem State.kick_wireOut (s : State) : s.kick.wireOut = s.wireOut := by
  unfold State.kick; split <;> rfl
@[simp] theorem State.kick_prog (s : State) : s.kick.prog = s.prog := by
  unfold State.kick; split <;> rfl
@[simp] theorem State.kick_sched (s : State) : s.kick.sched = s.sched := by
  unfold State.kick; split <;> rfl
@[simp] theorem State.kick_draws (s : State) : s.kick.draws = s.draws := by
  unfold State.kick; split <;> rfl
@[simp] theorem State.kick_txie (s : State) : s.kick.txie = true := by
  unfold State.kick; split <;> simp_all
@[simp] theorem State.kick_txifg (s : State) : s.kick.txifg = (s.txifg || !s.txie) := by
  unfold State.kick; split <;> simp_all
@[simp] theorem State.latchLineError_params (s : State) (fe oe : Bool) : (s.latchLineError fe oe).params = s.params := by
  cases fe <;> cases oe <;> rfl
@[simp] theorem State.latchLineError_rx (s : State) (fe oe : Bool) : (s.latchLineError fe oe).rx = s.rx := by
  cases fe <;> cases oe <;> rfl
@[simp] theorem State.latchLineError_tx (s : State) (fe oe : Bool) : (s.latchLineError fe oe).tx = s.tx := by
  cases fe <;> cases oe <;> rfl
@[simp] theorem State.latchLineError_rxbuf (s : State) (fe oe : Bool) : (s.latchLineError fe oe).rxbuf = s.rxbuf := by
  cases fe <;> cases oe <;> rfl
@[simp] theorem State.latchLineError_rxfe (s : State) (fe oe : Bool) : (s.latchLineError fe oe).rxfe = s.rxfe := by
  cases fe <;> cases oe <;> rfl
@[simp] theorem State.latchLineError_rxoe (s : State) (fe oe : Bool) : (s.latchLineError fe oe).rxoe = s.rxoe := by
  cases fe <;> cases oe <;> rfl
@[simp] theorem State.latchLineError_rxifg (s : State) (fe oe : Bool) : (s.latchLineError fe oe).rxifg = s.rxifg := by
  cases fe <;> cases oe <;> rfl
@[simp] theorem State.latchLineError_rxie (s : State) (fe oe : Bool) : (s.latchLineError fe oe).rxie = s.rxie := by
  cases fe <;> cases oe <;> rfl
@[simp] theorem State.latchLineError_txbuf (s : State) (fe oe : Bool) : (s.latchLineError fe oe).txbuf = s.txbuf := by
  cases fe <;> cases oe <;> rfl
@[simp] theorem State.latchLineError_txifg (s : State) (fe oe : Bool) : (s.latchLineError fe oe).txifg = s.txifg := by
  cases fe <;> cases oe <;> rfl
@[simp] theorem State.latchLineError_txie (s : State) (fe oe : Bool) : (s.latchLineError fe oe).txie = s.txie := by
  cases fe <;> cases oe <;> rfl
@[simp] theorem State.latchLineError_brdiv (s : State) (fe oe : Bool) : (s.latchLineError fe oe).brdiv = s.brdiv := by
  cases fe <;> cases oe <;> rfl
@[simp] theorem State.latchLineError_brmod (s : State) (fe oe : Bool) : (s.latchLineError fe oe).brmod = s.brmod := by
  cases fe <;> cases oe <;> rfl
@[simp] theorem State.latchLineError_gie (s : State) (fe oe : Bool) : (s.latchLineError fe oe).gie = s.gie := by
  cases fe <;> cases oe <;> rfl
@[simp] theorem State.latchLineError_atomStack (s : State) (fe oe : Bool) : (s.latchLineError fe oe).atomStack = s.atomStack := by
  cases fe <;> cases oe <;> rfl
@[simp] theorem State.latchLineError_mpc (s : State) (fe oe : Bool) : (s.latchLineError fe oe).mpc = s.mpc := by
  cases fe <;> cases oe <;> rfl
@[simp] theorem State.latchLineError_mphase (s : State) (fe oe : Bool) : (s.latchLineError fe oe).mphase = s.mphase := by
  cases fe <;> cases oe <;> rfl
@[simp] theorem State.latchLineError_mtmp (s : State) (fe oe : Bool) : (s.latchLineError fe oe).mtmp = s.mtmp := by
  cases fe <;> cases oe <;> rfl
@[simp] theorem State.latchLineError_mres (s : State) (fe oe : Bool) : (s.latchLineError fe oe).mres = s.mres := by
  cases fe <;> cases oe <;> rfl
@[simp] theorem State.latchLineError_wireOut (s : State) (fe oe : Bool) : (s.latchLineError fe oe).wireOut = s.wireOut := by
  cases fe <;> cases oe <;> rfl
@[simp] theorem State.latchLineError_prog (s : State) (fe oe : Bool) : (s.latchLineError fe oe).prog = s.prog := by
  cases fe <;> cases oe <;> rfl
@[simp] theorem State.latchLineError_sched (s : State) (fe oe : Bool) : (s.latchLineError fe oe).sched = s.sched := by
  cases fe <;> cases oe <;> rfl

end Sys2Proof.Machine
end

