-- ==== Sys2Proof/Laws/Ops.lean ====
section
/-! SUPPORT. What the shared operations can do, said once: storage, the FIFO functions, taking an interrupt. -/

namespace Sys2Proof.Machine

/-! ## Storage -/

theorem Memory.read_write_same (m : Memory) (i : Nat) (v : Byte) : (m.write i v).read i = some v := by
  induction m with
  | nil => simp [Memory.write, Memory.read]
  | cons c m ih =>
    obtain ⟨a, b⟩ := c
    simp only [Memory.write]
    split
    · simp [Memory.read]
    · split
      · simp [Memory.read]
      · have : a ≠ i := by omega
        simp [Memory.read, this, ih]

theorem Memory.read_write_other (m : Memory) {i j : Nat} (v : Byte) (h : j ≠ i) :
    (m.write i v).read j = m.read j := by
  induction m with
  | nil => simp [Memory.write, Memory.read, h.symm]
  | cons c m ih =>
    obtain ⟨a, b⟩ := c
    simp only [Memory.write]
    split
    · simp [Memory.read, h.symm]
    · split
      · rename_i hi
        subst hi
        simp [Memory.read, h.symm]
      · simp only [Memory.read, ih]

/-- The slots a write can leave: the slot written, and those that were there. -/
theorem Memory.mem_write {m : Memory} {i : Nat} {v : Byte} {c : Host.Cell} (h : c ∈ m.write i v) :
    c.1 = i ∨ c ∈ m := by
  induction m with
  | nil => simp [Memory.write] at h; simp [h]
  | cons d m ih =>
    obtain ⟨a, b⟩ := d
    simp only [Memory.write] at h
    split at h
    · rcases List.mem_cons.1 h with rfl | h
      · exact .inl rfl
      · exact .inr h
    · split at h
      · rcases List.mem_cons.1 h with rfl | h
        · exact .inl rfl
        · exact .inr (List.mem_cons_of_mem _ h)
      · rcases List.mem_cons.1 h with rfl | h
        · exact .inr List.mem_cons_self
        · exact (ih h).imp_right (List.mem_cons_of_mem _)

/-- A write, the one operation on storage that changes it, keeps the canonical form. -/
theorem Memory.wf_write {m : Memory} (h : m.wf) (i : Nat) (v : Byte) : (m.write i v).wf := by
  induction m with
  | nil => simp [Memory.write, Memory.wf]
  | cons d m ih =>
    obtain ⟨a, b⟩ := d
    obtain ⟨hlt, hm⟩ := List.pairwise_cons.1 h
    simp only [Memory.write]
    split
    · rename_i hi
      refine List.pairwise_cons.2 ⟨fun c hc => ?_, h⟩
      rcases List.mem_cons.1 hc with rfl | hc
      · exact hi
      · exact Nat.lt_trans hi (hlt c hc)
    · split
      · rename_i hi
        subst hi
        exact List.pairwise_cons.2 ⟨hlt, hm⟩
      · refine List.pairwise_cons.2 ⟨fun c hc => ?_, ih hm⟩
        rcases Memory.mem_write hc with h' | h'
        · simp only [h']; omega
        · exact hlt c h'

/-- Storage after power-on is in its canonical form. -/
theorem Memory.wf_reset : State.reset.rx.buf.wf ∧ State.reset.tx.buf.wf :=
  ⟨List.Pairwise.nil, List.Pairwise.nil⟩

/-! ## The FIFO functions -/

/-- Everything `try_push` can do when it answers. -/
theorem Fifo.tryPush_cases {n : Nat} {f g : Fifo} {b : Byte} {ok : Bool} (h : f.tryPush n b = .ok (ok, g)) :
    ∃ hd tl, f.head = some hd ∧ f.tail = some tl ∧
      ((nextIndex n hd = tl ∧ ok = false ∧ g = f) ∨
       (nextIndex n hd ≠ tl ∧ ok = true ∧
        g = { f with buf := f.buf.write (nextIndex n hd) b, head := some (nextIndex n hd) })) := by
  unfold Fifo.tryPush at h
  split at h
  · rename_i hd tl hh ht
    refine ⟨hd, tl, hh, ht, ?_⟩
    split at h <;> simp_all
  · simp at h

/-- `try_push` answers exactly when both indices hold a value. -/
theorem Fifo.tryPush_error {n : Nat} {f : Fifo} {b : Byte} {e : Fault} (h : f.tryPush n b = .error e) :
    f.head = none ∨ f.tail = none := by
  unfold Fifo.tryPush at h
  split at h
  · split at h <;> simp at h
  · rcases hh : f.head with _ | hd
    · exact .inl rfl
    · rcases ht : f.tail with _ | tl
      · exact .inr rfl
      · simp_all

/-- Everything `try_pop` can do when it answers. -/
theorem Fifo.tryPop_cases {n : Nat} {f g : Fifo} {r : Option Byte} (h : f.tryPop n = .ok (r, g)) :
    ∃ hd tl, f.head = some hd ∧ f.tail = some tl ∧
      ((hd = tl ∧ r = none ∧ g = f) ∨
       (hd ≠ tl ∧ ∃ b, r = some b ∧ f.buf.read (nextIndex n tl) = some b ∧
        g = { f with tail := some (nextIndex n tl) })) := by
  unfold Fifo.tryPop at h
  split at h
  · rename_i hd tl hh ht
    refine ⟨hd, tl, hh, ht, ?_⟩
    split at h
    · simp_all
    · rename_i hne
      split at h
      · rename_i b hb
        simp only [Except.ok.injEq, Prod.mk.injEq] at h
        obtain ⟨rfl, rfl⟩ := h
        exact .inr ⟨hne, b, rfl, hb, rfl⟩
      · simp at h
  · simp at h

/-- Where `try_pop` reads state that holds no value. -/
theorem Fifo.tryPop_error {n : Nat} {f : Fifo} {e : Fault} (h : f.tryPop n = .error e) :
    f.head = none ∨ f.tail = none ∨
      ∃ hd tl, f.head = some hd ∧ f.tail = some tl ∧ hd ≠ tl ∧ f.buf.read (nextIndex n tl) = none := by
  unfold Fifo.tryPop at h
  split at h
  · rename_i hd tl hh ht
    split at h
    · simp at h
    · split at h
      · simp at h
      · exact .inr (.inr ⟨hd, tl, hh, ht, ‹_›, ‹_›⟩)
  · rcases hh : f.head with _ | hd
    · exact .inl rfl
    · rcases ht : f.tail with _ | tl
      · exact .inr (.inl rfl)
      · simp_all

/-- A peek answers what a pop would return. -/
theorem Fifo.peek_eq_tryPop (n : Nat) (f : Fifo) : f.peek n = (f.tryPop n).map Prod.fst := by
  unfold Fifo.peek Fifo.tryPop
  split
  · split
    · rfl
    · split <;> simp_all [Except.map]
  · rfl

/-- Everything `available` can do. -/
theorem Fifo.available_cases {n k : Nat} {f : Fifo} (h : f.available n = .ok k) :
    ∃ hd tl, f.head = some hd ∧ f.tail = some tl ∧ k = countBetween n hd tl := by
  unfold Fifo.available at h
  split at h
  · rename_i hd tl hh ht
    exact ⟨hd, tl, hh, ht, by simpa using h.symm⟩
  · simp at h

/-- Everything `flush` can do. -/
theorem Fifo.flush_cases {f g : Fifo} (h : f.flush = .ok g) :
    ∃ hd, f.head = some hd ∧ g = { f with tail := some hd } := by
  unfold Fifo.flush at h
  split at h
  · rename_i hd hh
    exact ⟨hd, hh, by simpa using h.symm⟩
  · simp at h

/-! ## Ends of steps -/

theorem finish_next {r : Except Fault State} {t : State} (h : finish r = .next t) : r = .ok t := by
  unfold finish at h
  split at h <;> simp_all

/-- An interrupt taken leaves `gie` as it was and everything else as the handler's body leaves it. -/
theorem takeInterrupt_next {body : State → Except Fault State} {s t : State}
    (h : takeInterrupt body s = .next t) :
    ∃ u, body { s with gie := false } = .ok u ∧ t = { u with gie := s.gie } := by
  unfold takeInterrupt at h
  split at h
  · rename_i u hu
    exact ⟨u, hu, by simpa using h.symm⟩
  · simp at h

end Sys2Proof.Machine
end

