-- ==== Sys2Proof/Laws/PerInstr.lean ====
section
/-! SUPPORT. Statements about every instruction as syntax, one lemma per constructor: its word spells the row of the opcode
map (30_encoding.md R95) that bears its mnemonic. -/

namespace Sys2Proof.Laws.SpellsItsRow

/-- The encoded word matches the mask and pattern of the row with the instruction's mnemonic. -/
def Statement (i : Instr) : Prop :=
  ∃ r ∈ opcodeMap, r.mnemonic = i.mnemonic ∧ r.spells (encode i) = true

/-- A row of the map, found by its place. -/
theorem of_place {i : Instr} (k : Nat) (h : k < opcodeMap.length) (hm : opcodeMap[k].mnemonic = i.mnemonic)
    (hs : opcodeMap[k].spells (encode i) = true) : Statement i :=
  ⟨opcodeMap[k], List.getElem_mem h, hm, hs⟩

theorem fReset (sel : Sel) : Statement (.fReset sel) := by cases sel <;> exact of_place 0 (by decide) rfl rfl
theorem fTrypush (sel : Sel) (b : Byte) : Statement (.fTrypush sel b) := by
  cases sel <;> exact of_place 1 (by decide) rfl (by revert b; decide)
theorem fTrypop (sel : Sel) : Statement (.fTrypop sel) := by cases sel <;> exact of_place 2 (by decide) rfl rfl
theorem fPeek (sel : Sel) : Statement (.fPeek sel) := by cases sel <;> exact of_place 3 (by decide) rfl rfl
theorem fAvail (sel : Sel) : Statement (.fAvail sel) := by cases sel <;> exact of_place 4 (by decide) rfl rfl
theorem fFlush (sel : Sel) : Statement (.fFlush sel) := by cases sel <;> exact of_place 5 (by decide) rfl rfl
theorem evMstep : Statement .evMstep := of_place 6 (by decide) rfl rfl
theorem evTxready : Statement .evTxready := of_place 7 (by decide) rfl rfl
theorem evRxisr : Statement .evRxisr := of_place 8 (by decide) rfl rfl
theorem evTxisr : Statement .evTxisr := of_place 9 (by decide) rfl rfl
theorem evRxarrive (b : Byte) (fe oe : Bool) : Statement (.evRxarrive b fe oe) := by
  cases fe <;> cases oe <;> exact of_place 10 (by decide) rfl (by revert b; decide)
theorem init : Statement .init := of_place 11 (by decide) rfl rfl
theorem put (b : Byte) : Statement (.put b) := of_place 12 (by decide) rfl (by revert b; decide)
theorem get : Statement .get := of_place 13 (by decide) rfl rfl
theorem peek : Statement .peek := of_place 14 (by decide) rfl rfl
theorem avail : Statement .avail := of_place 15 (by decide) rfl rfl
theorem flush : Statement .flush := of_place 16 (by decide) rfl rfl
theorem atomEnterAtomic : Statement .atomEnterAtomic := of_place 17 (by decide) rfl rfl
theorem atomEnterNonatomic : Statement .atomEnterNonatomic := of_place 18 (by decide) rfl rfl
theorem atomExitRestore : Statement .atomExitRestore := of_place 19 (by decide) rfl rfl
theorem atomExitOn : Statement .atomExitOn := of_place 20 (by decide) rfl rfl
theorem atomExitOff : Statement .atomExitOff := of_place 21 (by decide) rfl rfl

end Sys2Proof.Laws.SpellsItsRow
end

