-- ==== Sys2Proof/Laws/Step.lean ====
section
/-! SUPPORT. What a step can do, said once: if an operation answers a next state, then which of its cases it took. Proofs over all
steps cite these and unfold no meaning. -/

namespace Sys2Proof.Machine

/-! ## Fetching -/

/-- A fetched command is the program's word at `mpc`, which lies within the program. -/
theorem fetchCommand_ok {s : State} {c : Instr} (h : fetchCommand s = .ok c) :
    s.command = some c ∧ c.isCommand = true ∧ s.mpc < s.prog.length := by
  unfold fetchCommand at h
  split at h
  · simp at h
  · rename_i w hw
    split at h
    · simp at h
    · rename_i i hi
      split at h
      · simp only [Except.ok.injEq] at h
        subst h
        exact ⟨by simp [State.command, hw, hi], ‹_›, (List.getElem?_eq_some_iff.1 hw).1⟩
      · simp at h

/-- A command that stands at `mpc` is fetched. -/
theorem fetchCommand_of_command {s : State} {c : Instr} (hc : s.command = some c) (hi : c.isCommand = true) :
    fetchCommand s = .ok c := by
  obtain ⟨w, hw, hd⟩ := Option.bind_eq_some_iff.1 hc
  simp [fetchCommand, hw, hd, hi]

/-- A fetched event is the schedule's next word, taken from it. -/
theorem fetchEvent_ok {s t : State} {i : Instr} (h : fetchEvent s = .ok (i, t)) :
    ∃ w rest, s.sched = w :: rest ∧ decodeWord w = some i ∧ i.isEvent = true ∧ t = { s with sched := rest } := by
  unfold fetchEvent at h
  split at h
  · simp at h
  · rename_i w rest hs
    split at h
    · simp at h
    · rename_i j hj
      split at h
      · simp only [Except.ok.injEq, Prod.mk.injEq] at h
        obtain ⟨rfl, rfl⟩ := h
        exact ⟨w, rest, hs, hj, ‹_›, rfl⟩
      · simp at h

/-- A step that answers has run an event of the schedule. -/
theorem step_next {s t : State} (h : step s = .next t) :
    ∃ w rest i, s.sched = w :: rest ∧ decodeWord w = some i ∧ i.isEvent = true ∧
      exec i { s with sched := rest } = .next t := by
  unfold step at h
  split at h
  · rename_i i u hu
    obtain ⟨w, rest, h1, h2, h3, rfl⟩ := fetchEvent_ok hu
    exact ⟨w, rest, i, h1, h2, h3, h⟩
  · simp at h

/-- A command's meaning is what the main agent's step on it does. -/
theorem exec_command {c : Instr} (h : c.isCommand = true) (s : State) : exec c s = runCommand c s := by
  cases c <;> first | rfl | simp [Instr.isCommand, Instr.format] at h

/-! ## Events -/

/-- A main step that answers has run the command at `mpc`. -/
theorem evMstep_next {s t : State} (h : exec .evMstep s = .next t) :
    ∃ c, s.command = some c ∧ c.isCommand = true ∧ s.mpc < s.prog.length ∧ runCommand c s = .next t := by
  simp only [exec, execEvMstep] at h
  split at h
  · rename_i c hc
    obtain ⟨a, b, d⟩ := fetchCommand_ok hc
    exact ⟨c, a, b, d, h⟩
  · simp at h

/-- TXREADY where it answers. -/
theorem evTxready_next {s t : State} (h : exec .evTxready s = .next t) :
    s.txifg = false ∧ t = { s with txifg := true } := by
  simp only [exec, execEvTxready] at h
  split at h
  · rename_i he
    exact ⟨by simpa [State.txreadyEnabled] using he, by simpa using h.symm⟩
  · simp at h

/-- RXISR where it answers: the byte pushed and its status latched, or the byte dropped and the overflow latched. -/
theorem evRxisr_next {s t : State} (h : exec .evRxisr s = .next t) :
    s.gie = true ∧ s.rxie = true ∧ s.rxifg = true ∧
    ∃ b fe oe ok f, s.rxbuf = some b ∧ s.rxfe = some fe ∧ s.rxoe = some oe ∧
      s.rx.tryPush (s.params.size .rx) b = .ok (ok, f) ∧
      ((ok = true ∧ t = { s with rxifg := false, rx := f }.latchLineError fe oe) ∨
       (ok = false ∧ t = { s with rxifg := false, lastError := .bufOvf })) := by
  simp only [exec, execEvRxisr] at h
  split at h
  · rename_i he
    simp only [State.rxisrEnabled, Bool.and_eq_true] at he
    obtain ⟨u, hu, rfl⟩ := takeInterrupt_next h
    refine ⟨he.1.1, he.1.2, he.2, ?_⟩
    unfold rxHandler at hu
    split at hu
    · rename_i b fe oe h1 h2 h3
      split at hu
      · rename_i f hf
        simp only [Except.ok.injEq] at hu
        subst hu
        refine ⟨b, fe, oe, true, f, h1, h2, h3, hf, .inl ⟨rfl, ?_⟩⟩
        cases fe <;> cases oe <;> rfl
      · rename_i f hf
        simp only [Except.ok.injEq] at hu
        subst hu
        exact ⟨b, fe, oe, false, f, h1, h2, h3, hf, .inr ⟨rfl, rfl⟩⟩
      · simp at hu
    · simp at hu
  · simp at h

/-- TXISR where it answers: the oldest byte sent, or the source switched off. -/
theorem evTxisr_next {s t : State} (h : exec .evTxisr s = .next t) :
    s.gie = true ∧ s.txie = true ∧ s.txifg = true ∧
    ∃ r f, s.tx.tryPop (s.params.size .tx) = .ok (r, f) ∧
      ((∃ b, r = some b ∧
          t = { s with tx := f, txbuf := some b, wireOut := s.wireOut ++ [b], txifg := false }) ∨
       (r = none ∧ t = { s with txie := false })) := by
  simp only [exec, execEvTxisr] at h
  split at h
  · rename_i he
    simp only [State.txisrEnabled, Bool.and_eq_true] at he
    obtain ⟨u, hu, rfl⟩ := takeInterrupt_next h
    refine ⟨he.1.1, he.1.2, he.2, ?_⟩
    unfold txHandler at hu
    split at hu
    · rename_i b f hf
      simp only [Except.ok.injEq] at hu
      subst hu
      exact ⟨some b, f, hf, .inl ⟨b, rfl, rfl⟩⟩
    · rename_i f hf
      simp only [Except.ok.injEq] at hu
      subst hu
      exact ⟨none, f, hf, .inr ⟨rfl, rfl⟩⟩
    · simp at hu
  · simp at h

/-! ## Commands -/

/-- PUT where it answers: the byte queued, the attempt in vain, or the kick and the end. -/
theorem put_next {b : Byte} {s t : State} (h : execPut b s = .next t) :
    (s.mphase = .zero ∧ ∃ ok f, s.tx.tryPush (s.params.size .tx) b = .ok (ok, f) ∧
      ((ok = true ∧ t = { s with tx := f, mphase := .one }) ∨ (ok = false ∧ t = s))) ∨
    (s.mphase = .one ∧ t = putComplete b s) := by
  unfold execPut at h
  split at h
  · rename_i hp
    have h := finish_next h
    unfold putAttempt at h
    refine .inl ⟨hp, ?_⟩
    split at h
    · rename_i f hf
      exact ⟨true, f, hf, .inl ⟨rfl, by simpa using h.symm⟩⟩
    · rename_i f hf
      exact ⟨false, f, hf, .inr ⟨rfl, by simpa using h.symm⟩⟩
    · simp at h
  · rename_i hp
    exact .inr ⟨hp, by simpa using h.symm⟩

/-- GET where it answers: nothing to pop, a byte popped, or the byte returned with its error. -/
theorem get_next {s t : State} (h : execGet s = .next t) :
    (s.mphase = .zero ∧ ∃ r f, s.rx.tryPop (s.params.size .rx) = .ok (r, f) ∧
      ((r = none ∧ t = (s.result noDataWord).advance) ∨
       (∃ b, r = some b ∧ t = { s with rx := f, mtmp := some b, mphase := .one }))) ∨
    (s.mphase = .one ∧ ∃ b, s.mtmp = some b ∧
      t = { (s.result (statusWord s.lastError b)).advance with lastError := .none, mphase := .zero }) := by
  unfold execGet at h
  split at h
  · rename_i hp
    have h := finish_next h
    unfold getPop at h
    refine .inl ⟨hp, ?_⟩
    split at h
    · rename_i f hf
      exact ⟨none, f, hf, .inl ⟨rfl, by simpa using h.symm⟩⟩
    · rename_i b f hf
      exact ⟨some b, f, hf, .inr ⟨b, rfl, by simpa using h.symm⟩⟩
    · simp at h
  · rename_i hp
    have h := finish_next h
    unfold getAttach at h
    refine .inr ⟨hp, ?_⟩
    split at h
    · rename_i b hb
      exact ⟨b, hb, by simpa using h.symm⟩
    · simp at h

/-- INIT where it answers. -/
theorem init_next {s t : State} (h : execInit s = .next t) :
    s.handlersQuiet = true ∧ s.baudInRange = true ∧ t = s.initialised.advance := by
  unfold execInit at h
  split at h
  · split at h
    · exact ⟨‹_›, ‹_›, by simpa using h.symm⟩
    · simp at h
  · simp at h

/-- An exit of a section where it answers. -/
theorem exitSection_next {policy : Bool → Bool} {s t : State} (h : exitSection policy s = .next t) :
    ∃ c rest, s.atomStack = c :: rest ∧ t = { s with atomStack := rest, gie := policy c }.advance := by
  unfold exitSection at h
  split at h
  · exact ⟨_, _, ‹_›, by simpa using h.symm⟩
  · simp at h

/-- F.RESET where it answers. -/
theorem fReset_next {sel : Sel} {s t : State} (h : execFReset sel s = .next t) :
    s.admits .reset sel = true ∧ t = (s.setFifo sel (s.fifo sel).reset).advance := by
  unfold execFReset at h
  split at h
  · exact ⟨‹_›, by simpa using h.symm⟩
  · simp at h

/-- F.TRYPUSH where it answers. -/
theorem fTrypush_next {sel : Sel} {b : Byte} {s t : State} (h : execFTrypush sel b s = .next t) :
    s.admits .push sel = true ∧ ∃ ok f, (s.fifo sel).tryPush (s.params.size sel) b = .ok (ok, f) ∧
      t = s.ringDone sel f (boolWord ok) := by
  unfold execFTrypush at h
  split at h
  · split at h
    · exact ⟨‹_›, _, _, ‹_›, by simpa using h.symm⟩
    · simp at h
  · simp at h

/-- F.TRYPOP where it answers. -/
theorem fTrypop_next {sel : Sel} {s t : State} (h : execFTrypop sel s = .next t) :
    s.admits .pop sel = true ∧ ∃ r f, (s.fifo sel).tryPop (s.params.size sel) = .ok (r, f) ∧
      t = s.ringDone sel f (byteWord r) := by
  unfold execFTrypop at h
  split at h
  · split at h
    · exact ⟨‹_›, _, _, ‹_›, by simpa using h.symm⟩
    · simp at h
  · simp at h

/-- F.FLUSH where it answers. -/
theorem fFlush_next {sel : Sel} {s t : State} (h : execFFlush sel s = .next t) :
    s.admits .flush sel = true ∧ ∃ f, (s.fifo sel).flush = .ok f ∧ t = (s.setFifo sel f).advance := by
  unfold execFFlush at h
  split at h
  · split at h
    · exact ⟨‹_›, _, ‹_›, by simpa using h.symm⟩
    · simp at h
  · simp at h

/-- F.PEEK where it answers. -/
theorem fPeek_next {sel : Sel} {s t : State} (h : execFPeek sel s = .next t) :
    ∃ r, (s.fifo sel).peek (s.params.size sel) = .ok r ∧ t = (s.result (byteWord r)).advance := by
  unfold execFPeek at h
  split at h
  · split at h
    · exact ⟨_, ‹_›, by simpa using h.symm⟩
    · simp at h
  · simp at h

/-- F.AVAIL where it answers. -/
theorem fAvail_next {sel : Sel} {s t : State} (h : execFAvail sel s = .next t) :
    ∃ k, (s.fifo sel).available (s.params.size sel) = .ok k ∧ t = (s.result (countWord k)).advance := by
  unfold execFAvail at h
  split at h
  · split at h
    · exact ⟨_, ‹_›, by simpa using h.symm⟩
    · simp at h
  · simp at h

/-- PEEK where it answers. -/
theorem peek_next {s t : State} (h : execPeek s = .next t) :
    ∃ r, s.rx.peek (s.params.size .rx) = .ok r ∧ t = (s.result (attachedWord s.lastError r)).advance := by
  unfold execPeek at h
  split at h
  · exact ⟨_, ‹_›, by simpa using h.symm⟩
  · simp at h

/-- AVAIL where it answers. -/
theorem avail_next {s t : State} (h : execAvail s = .next t) :
    ∃ k, s.rx.available (s.params.size .rx) = .ok k ∧ t = (s.result (countWord k)).advance := by
  unfold execAvail at h
  split at h
  · exact ⟨_, ‹_›, by simpa using h.symm⟩
  · simp at h

/-- FLUSH where it answers. -/
theorem flush_next {s t : State} (h : execFlush s = .next t) :
    ∃ f, s.rx.flush = .ok f ∧ t = ({ s with rx := f } : State).advance := by
  unfold execFlush at h
  split at h
  · exact ⟨_, ‹_›, by simpa using h.symm⟩
  · simp at h

end Sys2Proof.Machine
end

