-- ==== Sys2Proof/Tests/Slice0.lean ====
section
/-! SUPPORT. The model's own tests. Expected results are those of 95_test_vectors.md (the vector is named beside each test) or of the
examples in the rules. The second part shows, for each statement with hypotheses, a state that meets them. -/

namespace Sys2Proof.Machine

/-! ## Helpers -/

/-- What is asked of the next state, or nothing where the step stops. -/
def after {α : Type} (o : Host.Outcome State Fault Refusal) (f : State → α) : Option α :=
  match o with
  | .next s => some (f s)
  | .fault _ => none
  | .refused _ => none

/-- The refusal of a step. -/
def refusal (o : Host.Outcome State Fault Refusal) : Option Refusal :=
  match o with
  | .next _ => none
  | .fault _ => none
  | .refused r => some r

/-- The fault of a step. -/
def faultOf (o : Host.Outcome State Fault Refusal) : Option Fault :=
  match o with
  | .next _ => none
  | .fault f => some f
  | .refused _ => none

/-- After power-on with the parameters of 95_test_vectors.md section 0, `txifg` drawn 0. -/
def idle : State := State.powerOn Config.resetParams false

/-- A four-slot instance of which every slot was written. -/
def ring (h t : Nat) : Fifo := { buf := [(0, 0x44), (1, 0x41), (2, 0x42), (3, 0x43)], head := some h, tail := some t }

/-- `gie = 0`, the receive FIFO with the given indices. -/
def withRx (h t : Nat) : State := { idle with rx := ring h t, tx := ring 0 0 }

/-- After `INIT; ATOM.ENTER.ATOMIC; ATOM.EXIT.ON`, the prefix of 95_test_vectors.md 2.7. -/
def ready : State :=
  { idle with rx := { buf := [], head := some 0, tail := some 0 }, tx := { buf := [], head := some 0, tail := some 0 },
              rxie := true, gie := true }

/-! ## Decoding: words written out from 30_encoding.md -/

theorem test_decode_fReset : decodeWord 0b0001100000000000 = some (.fReset .tx) := by decide
theorem test_decode_fTrypush : decodeWord 0b0010100001000001 = some (.fTrypush .tx 0x41) := by decide
theorem test_decode_fTrypush_rx : decodeWord 0b0010000001000100 = some (.fTrypush .rx 0x44) := by decide
theorem test_decode_fTrypop : decodeWord 0b0011100000000000 = some (.fTrypop .tx) := by decide
theorem test_decode_fPeek : decodeWord 0b0100000000000000 = some (.fPeek .rx) := by decide
theorem test_decode_fAvail : decodeWord 0b0101100000000000 = some (.fAvail .tx) := by decide
theorem test_decode_fFlush : decodeWord 0b0110000000000000 = some (.fFlush .rx) := by decide
theorem test_decode_evMstep : decodeWord 0b0111000000000000 = some .evMstep := by decide
theorem test_decode_evTxready : decodeWord 0b0111000100000000 = some .evTxready := by decide
theorem test_decode_evRxisr : decodeWord 0b0111001000000000 = some .evRxisr := by decide
theorem test_decode_evTxisr : decodeWord 0b0111001100000000 = some .evTxisr := by decide
theorem test_decode_evRxarrive_fe : decodeWord 0b0111100101100101 = some (.evRxarrive 0x65 true false) := by decide
theorem test_decode_evRxarrive_oe : decodeWord 0b0111101001000001 = some (.evRxarrive 0x41 false true) := by decide
theorem test_decode_init : decodeWord 0b1000000000000000 = some .init := by decide
theorem test_decode_put : decodeWord 0b1001000001001111 = some (.put 0x4F) := by decide
theorem test_decode_get : decodeWord 0b1010000000000000 = some .get := by decide
theorem test_decode_peek : decodeWord 0b1011000000000000 = some .peek := by decide
theorem test_decode_avail : decodeWord 0b1100000000000000 = some .avail := by decide
theorem test_decode_flush : decodeWord 0b1101000000000000 = some .flush := by decide
theorem test_decode_atomEnterAtomic : decodeWord 0b1110000000000000 = some .atomEnterAtomic := by decide
theorem test_decode_atomEnterNonatomic : decodeWord 0b1110000000000001 = some .atomEnterNonatomic := by decide
theorem test_decode_atomExitRestore : decodeWord 0b1111000000000000 = some .atomExitRestore := by decide
theorem test_decode_atomExitOn : decodeWord 0b1111000000000001 = some .atomExitOn := by decide
theorem test_decode_atomExitOff : decodeWord 0b1111000000000010 = some .atomExitOff := by decide

/-- V1.40 to V1.55: the reserved words. -/
theorem test_reserved_words :
    ([0x0000, 0x0FFF, 0x1001, 0x1100, 0x2141, 0x3801, 0x7001, 0x7400, 0x7C41, 0x8001, 0x8100, 0x9141, 0xA0FF, 0xE002,
      0xE003, 0xF003, 0xE010, 0xF100] : List Word).all (fun w => decodeWord w == none) = true := by decide

/-- The host's view of a table word. -/
theorem test_decodeTableWord : decodeTableWord 16 0x2841 = some (.fTrypush .tx 0x41) := by decide

/-- R103's examples. -/
theorem test_asm : asm (.fTrypush .tx 0x41) = "F.TRYPUSH TX, 0x41" ∧ asm (.evRxarrive 0x65 true false) = "EV.RXARRIVE 0x65, FE" := by
  decide

/-- R103's examples and R105's, read. -/
theorem test_assemble :
    assembleLine "F.TRYPUSH TX, 0x41" = some [.fTrypush .tx 0x41] ∧ assembleLine "PUT 'O' ; a comment" = some [.put 0x4F] ∧
    assembleLine "EV.RXARRIVE 0x65, FE" = some [.evRxarrive 0x65 true false] ∧ assembleLine "ATOM.EXIT.ON" = some [.atomExitOn] := by
  decide
theorem test_assemble_puts : assembleLine "PUTS \"OK\"" = some [.put 0x4F, .put 0x4B] := by decide
/-- R105: with `n = 0` it expands to nothing; and a word that is no mnemonic is none. -/
theorem test_assemble_none : assembleLine "PUTS" = some [] ∧ assembleLine "; only a comment" = some [] ∧ assembleLine "POP RX" = none := by
  decide

/-- V1.30. -/
theorem test_puts : (puts [0x4F, 0x4B]).map encode = [0x904F, 0x904B] := by decide

/-! ## Well-formed programs and schedules: an ill-formed term for each check -/

theorem test_wellFormed : programWellFormed [.init, .atomEnterAtomic, .put 0x61, .atomExitOn] = true := by decide
theorem test_illFormed_event : programWellFormed [.init, .evRxisr] = false := by decide
theorem test_illFormed_exit : programWellFormed [.atomExitRestore] = false := by decide
theorem test_illFormed_open : programWellFormed [.atomEnterAtomic, .get] = false := by decide
theorem test_illFormed_schedule : scheduleWellFormed [.evMstep, .get] = false := by decide
theorem test_illFormed_word : progWordsWellFormed [0x8000, 0x0000] = false := by decide

/-! ## Format F -/

/-- V2.2. -/
theorem test_fReset_keeps_storage : after (exec (.fReset .rx) (withRx 2 1)) (fun t => t.rx) = some (ring 0 0) := by decide
/-- V2.31. -/
theorem test_fReset_role : refusal (exec (.fReset .rx) ready) = some .roleViolation := by decide
/-- V2.4, the wrap. -/
theorem test_fTrypush_wraps :
    after (exec (.fTrypush .rx 0x45) (withRx 3 1)) (fun t => (t.rx.head, t.rx.tail, t.rx.buf.read 0, t.mres)) =
      some (some 0, some 1, some 0x45, [0x0001]) := by decide
/-- V2.5. -/
theorem test_fTrypush_full :
    after (exec (.fTrypush .rx 0x45) (withRx 0 1)) (fun t => (t.rx, t.mres)) = some (ring 0 1, [0x0000]) := by decide
/-- V2.8. -/
theorem test_fTrypop_wraps :
    after (exec (.fTrypop .rx) (withRx 0 3)) (fun t => (t.rx.tail, t.mres)) = some (some 0, [0x0044]) := by decide
/-- V2.8b. -/
theorem test_fTrypop_empty :
    after (exec (.fTrypop .rx) (withRx 0 0)) (fun t => (t.rx, t.mres)) = some (ring 0 0, [0x0100]) := by decide
/-- V2.10. -/
theorem test_fPeek : after (exec (.fPeek .rx) (withRx 3 1)) (fun t => (t.rx, t.mres)) = some (ring 3 1, [0x0042]) := by decide
/-- V2.12. -/
theorem test_fPeek_empty : after (exec (.fPeek .rx) (withRx 2 2)) (fun t => t.mres) = some [0x0100] := by decide
/-- V2.14, the count across the wrap. -/
theorem test_fAvail_wraps : after (exec (.fAvail .rx) (withRx 0 1)) (fun t => t.mres) = some [0x0003] := by decide
/-- V8.2. -/
theorem test_fAvail_noValue : faultOf (exec (.fAvail .tx) idle) = some .uninitialisedRead := by decide
/-- V2.17. -/
theorem test_fFlush : after (exec (.fFlush .rx) (withRx 2 0)) (fun t => (t.rx, t.mres)) = some (ring 2 2, []) := by decide

/-! ## Format M -/

/-- V3.1 and the example of R141. -/
theorem test_init :
    after (exec .init { idle with rxifg := true }) (fun t => (t.tx.tail, t.brdiv, t.rxie, t.txie, t.rxifg, t.mpc)) =
      some (some 0, some 104, true, false, true, 1) := by decide
/-- V5.10. -/
theorem test_init_baud :
    refusal (exec .init { idle with params := { rxExp := 1, txExp := 1, fClk := 6553600, baud := 100 } }) = some .baudOutOfRange := by decide
/-- V3.2, phase 1. -/
theorem test_put_kick :
    after (exec (.put 0x4F) { ready with mphase := .one }) (fun t => (t.txifg, t.txie, t.mres, t.mphase, t.mpc)) =
      some (true, true, [0x004F], .zero, 1) := by decide
/-- V3.5: the attempt on a full FIFO changes nothing. -/
theorem test_put_waits :
    after (exec (.put 0x64) { ready with tx := ring 3 0 }) (fun t => t) = some { ready with tx := ring 3 0 } := by decide
/-- V3.6, phase 0. -/
theorem test_get_pop :
    after (exec .get { ready with rx := ring 2 0 }) (fun t => (t.rx.tail, t.mtmp, t.mphase, t.mpc)) =
      some (some 1, some 0x41, .one, 0) := by decide
/-- V1.64 and V3.6, phase 1. -/
theorem test_get_attach :
    after (exec .get { ready with mphase := .one, mtmp := some 0x61, lastError := .bufOvf }) (fun t => (t.mres, t.lastError, t.mpc)) =
      some ([0x0261], .none, 1) := by decide
/-- V3.10. -/
theorem test_peek :
    after (exec .peek { ready with rx := ring 3 2, lastError := .frame }) (fun t => (t.mres, t.lastError)) =
      some ([0x0843], .frame) := by decide
/-- V3.12. -/
theorem test_peek_empty :
    after (exec .peek { ready with rx := ring 1 1, lastError := .overrun }) (fun t => t.mres) = some [0x0100] := by decide
/-- V3.13. -/
theorem test_avail : after (exec .avail { ready with rx := ring 3 0 }) (fun t => t.mres) = some [0x0003] := by decide
/-- V3.15. -/
theorem test_flush :
    after (exec .flush { ready with rx := ring 2 0, lastError := .bufOvf, rxifg := true }) (fun t => (t.rx.tail, t.lastError, t.rxifg)) =
      some (some 2, .bufOvf, true) := by decide

/-! ## Format A -/

/-- V4.1. -/
theorem test_atomEnterAtomic :
    after (exec .atomEnterAtomic { ready with gie := true }) (fun t => (t.gie, t.atomStack)) = some (false, [true]) := by decide
/-- V4.3. -/
theorem test_atomEnterNonatomic :
    after (exec .atomEnterNonatomic { ready with gie := false, atomStack := [true] }) (fun t => (t.gie, t.atomStack)) =
      some (true, [false, true]) := by decide
/-- V4.6. -/
theorem test_atomExitRestore :
    after (exec .atomExitRestore { ready with gie := true, atomStack := [false, true] }) (fun t => (t.gie, t.atomStack)) =
      some (false, [true]) := by decide
/-- V4.10. -/
theorem test_atomExitRestore_unbalanced : refusal (exec .atomExitRestore idle) = some .unbalancedAtomicSection := by decide
/-- V4.7. -/
theorem test_atomExitOn :
    after (exec .atomExitOn { idle with atomStack := [false] }) (fun t => (t.gie, t.atomStack)) = some (true, []) := by decide
/-- V4.9. -/
theorem test_atomExitOff :
    after (exec .atomExitOff { idle with atomStack := [true] }) (fun t => (t.gie, t.atomStack)) = some (false, []) := by decide

/-! ## Format E -/

/-- V8.1: the main agent's step on GET before INIT. -/
theorem test_evMstep_fault : faultOf (exec .evMstep { idle with prog := [0xA000] }) = some .uninitialisedRead := by decide
/-- V4.1 through the program. -/
theorem test_evMstep : after (exec .evMstep { idle with prog := [0xE000] }) (fun t => (t.atomStack, t.mpc)) = some ([false], 1) := by decide
/-- V6.34. -/
theorem test_evTxready : after (exec .evTxready idle) (fun t => t.txifg) = some true := by decide
/-- V6.35. -/
theorem test_evTxready_disabled : refusal (exec .evTxready { idle with txifg := true }) = some .agentNotEnabled := by decide

/-- A byte pending at the receive handler, as in 95_test_vectors.md 2.6. -/
def arrived (h t : Nat) (b : Byte) (fe oe : Bool) (e : ErrorKind) : State :=
  { ready with rx := ring h t, rxbuf := some b, rxfe := some fe, rxoe := some oe, rxifg := true, lastError := e }

/-- V6.17: a newer error replaces an older one. -/
theorem test_evRxisr_newer :
    after (exec .evRxisr (arrived 1 0 0x62 false true .frame)) (fun t => (t.rx.head, t.rx.buf.read 2, t.rxifg, t.lastError, t.gie)) =
      some (some 2, some 0x62, false, .overrun, true) := by decide
/-- V6.15: overflow wins over the status. -/
theorem test_evRxisr_full :
    after (exec .evRxisr (arrived 3 0 0x64 true true .none)) (fun t => (t.rx, t.rxifg, t.lastError)) = some (ring 3 0, false, .bufOvf) := by
  decide
/-- V6.22. -/
theorem test_evTxisr_wraps :
    after (exec .evTxisr { ready with tx := ring 0 3, txie := true, txifg := true }) (fun t => (t.tx.tail, t.txbuf, t.wireOut, t.txifg)) =
      some (some 0, some 0x44, [0x44], false) := by decide
/-- V6.21. -/
theorem test_evTxisr_empty :
    after (exec .evTxisr { ready with tx := ring 2 2, txie := true, txifg := true }) (fun t => (t.txie, t.txifg, t.wireOut)) =
      some (false, true, []) := by decide
/-- V6.31. -/
theorem test_evRxarrive :
    after (exec (.evRxarrive 0x62 false true) (arrived 0 0 0x61 false false .none)) (fun t => (t.rxbuf, t.rxfe, t.rxoe, t.rxifg)) =
      some (some 0x62, some false, some true, true) := by decide

/-! ## The step -/

/-- V8.10: a handler that is not enabled is no legal step. -/
theorem test_step_invalid_schedule : refusal (step { idle with prog := [0x8000], sched := [0x7200] }) = some .agentNotEnabled := by decide
/-- P2, row 2. -/
theorem test_step_runs_program :
    after (step { idle with prog := [0xE000], sched := [0x7000, 0x7000] }) (fun t => (t.mpc, t.sched)) = some (1, [0x7000]) := by decide
/-- A command word placed by the host runs in the next step. -/
theorem test_withFetchWord_command : after (step (idle.withFetchWord 16 0x1000)) (fun t => (t.rx.head, t.mpc)) = some (some 0, 1) := by decide
/-- An event word placed by the host runs in the next step. -/
theorem test_withFetchWord_event : after (step (idle.withFetchWord 16 0x7861)) (fun t => (t.rxbuf, t.rxifg)) = some (some 0x61, true) := by decide

/-! ## The line editor -/

/-- `L = 8`, `BS_CODE = 0x08`, as in 95_test_vectors.md section 4: the characters given, the cursor and the state tag. -/
def editor (text : List Byte) (position : Nat) (mode : EditMode) : LineEditor :=
  { editorInit 8 with line := text ++ List.replicate (8 - text.length) 0xFF, len := text.length, position := position, mode := mode }

/-- V10.2. -/
theorem test_editor_backspace :
    ((feed (editor [0x61, 0x62, 0x63] 2 .running) 0x08).1.text, (feed (editor [0x61, 0x62, 0x63] 2 .running) 0x08).1.position,
      (feed (editor [0x61, 0x62, 0x63] 2 .running) 0x08).2) =
      ([0x61, 0x63], 1, [0x1B, 0x5B, 0x44, 0x1B, 0x5B, 0x73, 0x1B, 0x5B, 0x30, 0x4B, 0x63, 0x1B, 0x5B, 0x75]) := by decide
/-- V10.4. -/
theorem test_editor_insert :
    ((feed (editor [0x61, 0x63] 1 .running) 0x62).1.text, (feed (editor [0x61, 0x63] 1 .running) 0x62).1.position,
      (feed (editor [0x61, 0x63] 1 .running) 0x62).2) = ([0x61, 0x62, 0x63], 2, [0x62]) := by decide
/-- V10.14. -/
theorem test_editor_delete :
    ((feed (editor [0x61, 0x62, 0x63] 1 .escapeBracket) 0x33).1.text, (feed (editor [0x61, 0x62, 0x63] 1 .escapeBracket) 0x33).1.mode,
      (feed (editor [0x61, 0x62, 0x63] 1 .escapeBracket) 0x33).2) =
      ([0x61, 0x63], .escapeBracketTilde, [0x1B, 0x5B, 0x73, 0x1B, 0x5B, 0x30, 0x4B, 0x63, 0x1B, 0x5B, 0x75]) := by decide
/-- V10.21: the NUL is written. -/
theorem test_editor_terminates :
    ((feed (editor [0x61, 0x62] 1 .running) 0x0A).1.line[2]?, (feed (editor [0x61, 0x62] 1 .running) 0x0A).1.text,
      (feed (editor [0x61, 0x62] 1 .running) 0x0A).1.position, (feed (editor [0x61, 0x62] 1 .running) 0x0A).1.mode) =
      (some 0x00, [0x61, 0x62], 1, .lineReady) := by decide
/-- V10.22, at init. -/
theorem test_editor_empty_line :
    ((feed (editorInit 8) 0x0D).1.line[0]?, (drain (feed (editorInit 8) 0x0D).1).1) = (some 0x00, some []) := by decide

/-- What is asked of the console after a step. -/
def afterConsole {α : Type} (c : Console) (f : Console → α) : Option α :=
  match c.step with
  | .next d => some (f d)
  | .fault _ => none
  | .refused _ => none

/-- R181: the byte GET returns is fed, and its echo is the next command; the program goes on after it. -/
theorem test_console_echo :
    afterConsole { machine := { ready with prog := [0xA000, 0xA000], sched := [0x7000], mphase := .one, mtmp := some 0x61 }, editor := editorInit 8 }
      (fun c => (c.machine.prog, c.machine.mpc, c.editor.text)) = some ([0xA000, 0x9061, 0xA000], 1, [0x61]) := by decide
/-- R181: `NO_DATA` feeds nothing. -/
theorem test_console_noData :
    afterConsole { machine := { ready with prog := [0xA000], sched := [0x7000] }, editor := editorInit 8 }
      (fun c => (c.machine.prog, c.machine.mres, c.editor.text)) = some ([0xA000], [0x0100], []) := by decide

/-! ## Witnesses: what meets the hypotheses of each statement, clause by clause -/

theorem ring_valid {h t : Nat} (hh : h < 4) (ht : t < 4) : (ring h t).Valid 4 where
  canonical := by show Memory.wf [(0, 0x44), (1, 0x41), (2, 0x42), (3, 0x43)]; decide
  inRange := by show ∀ c ∈ [((0 : Nat), (0x44 : Byte)), (1, 0x41), (2, 0x42), (3, 0x43)], c.1 < 4; decide
  together := rfl
  headLt := by intro x hx; cases hx; exact hh
  tailLt := by intro x hx; cases hx; exact ht
  live := by
    intro x y hx hy k _
    cases hx
    cases hy
    have : (t + 1 + k) % 4 < 4 := Nat.mod_lt _ (by decide)
    generalize (t + 1 + k) % 4 = j at this
    have all : ∀ j < 4, (Memory.read [(0, 0x44), (1, 0x41), (2, 0x42), (3, 0x43)] j).isSome = true := by decide
    exact all j this

/-- An instance just reset, of which no slot was written, is valid. -/
theorem fresh_valid : Fifo.Valid 4 { buf := [], head := some 0, tail := some 0 } where
  canonical := List.Pairwise.nil
  inRange := by intro c hc; cases hc
  together := rfl
  headLt := by intro x hx; cases hx; decide
  tailLt := by intro x hx; cases hx; decide
  live := by intro x y hx hy k hk; cases hx; cases hy; exact absurd hk (Nat.not_lt_zero k)

/-- Interrupts on, a byte in each FIFO, both handlers able to run. -/
def busy : State :=
  { ready with rx := ring 1 0, tx := ring 1 0, txie := true, txifg := true, rxbuf := some 0x62, rxfe := some true, rxoe := some true,
               rxifg := true }

theorem busy_inv : busy.Inv where
  rxValid := ring_valid (by decide) (by decide)
  txValid := ring_valid (by decide) (by decide)
  rxieStarted := fun _ => ⟨rfl, rfl⟩
  txieStarted := fun _ => ⟨rfl, rfl⟩
  rxifgFull := fun _ => ⟨rfl, rfl, rfl⟩
  latched := by decide
  mpcLe := by decide
  phaseOne := by intro h; cases h

/-- The same within a program: its next command is the one given. -/
def running (w : Word) : State := { busy with prog := [w], sched := [0x7000] }

theorem running_inv (w : Word) : (running w).Inv where
  rxValid := busy_inv.rxValid
  txValid := busy_inv.txValid
  rxieStarted := busy_inv.rxieStarted
  txieStarted := busy_inv.txieStarted
  rxifgFull := busy_inv.rxifgFull
  latched := busy_inv.latched
  mpcLe := Nat.zero_le _
  phaseOne := by intro h; cases h

theorem witness_EncodeOfDecodeIsIdentity : decodeWord 0x7B41 = some (.evRxarrive 0x41 true true) := by decide

theorem witness_ReservedWordsAreExactlyR101 :
    { idle with prog := [0x0FFF] }.prog[idle.mpc]? = some 0x0FFF ∧ reservedByRule 0x0FFF := ⟨rfl, .inl (by decide)⟩

theorem witness_OpcodeRowsAreDisjoint :
    ∃ r ∈ opcodeMap, r.spells 0x904F = true ∧ r.mnemonic = "PUT" := by
  refine ⟨⟨"PUT", 0x9000, 0xFF00, fun w => .put (imm8Of w)⟩, ?_, by decide, rfl⟩
  simp [opcodeMap, rowsM]

theorem witness_StepRunsScheduledEvent :
    { idle with sched := [0x7841] }.sched = 0x7841 :: [] ∧ decodeWord 0x7841 = some (.evRxarrive 0x41 false false) ∧
    (Instr.evRxarrive 0x41 false false).isEvent = true := by decide

theorem witness_MainStepRunsCommandAtMpc :
    (running 0x904F).prog[(running 0x904F).mpc]? = some 0x904F ∧ decodeWord 0x904F = some (.put 0x4F) ∧
    (Instr.put 0x4F).isCommand = true ∧ (running 0x904F).sched = 0x7000 :: [] := by decide

theorem witness_MisplacedWordsAreRefused :
    ((running 0xF003).prog[(running 0xF003).mpc]? = some 0xF003 ∧ decodeWord 0xF003 = none) ∧
    ((running 0x7000).prog[(running 0x7000).mpc]? = some 0x7000 ∧ decodeWord 0x7000 = some .evMstep ∧ Instr.evMstep.isEvent = true) ∧
    ({ idle with sched := [0xA000] }.sched = 0xA000 :: [] ∧ decodeWord 0xA000 = some .get ∧ Instr.get.isCommand = true) ∧
    ({ idle with sched := [0x7C00] }.sched = 0x7C00 :: [] ∧ decodeWord 0x7C00 = none) ∧ idle.sched = [] := by decide

theorem witness_StepKeepsProgramAndParameters : ∃ t, step (running 0xE000) = .next t := ⟨_, rfl⟩

/-- Each index without a value on its own; the slots of both instances, RX for GET, PEEK and F.TRYPOP, TX for TXISR. -/
theorem witness_ReadOfNoValueFaults :
    ((idle.fifo .tx).head = none ∧ idle.gie = false) ∧ (idle.rx.head = none ∧ idle.mphase = .zero) ∧
    (∃ s : State, s.rx.head = some 0 ∧ s.rx.tail = none ∧ s.tx.head = some 0 ∧ s.tx.tail = none ∧ s.gie = false ∧ s.mphase = .zero) ∧
    (∃ s : State, (s.fifo .rx).head = some 1 ∧ (s.fifo .rx).tail = some 0 ∧ s.mphase = .zero ∧ s.gie = false ∧
      (s.fifo .rx).buf.read (nextIndex (s.params.size .rx) 0) = none) ∧
    (∃ s : State, (s.fifo .tx).head = some 0 ∧ (s.fifo .tx).tail = some 3 ∧ s.txisrEnabled = true ∧
      (s.fifo .tx).buf.read (nextIndex (s.params.size .tx) 3) = none) ∧
    (∃ s : State, s.rxisrEnabled = true ∧ s.rxbuf = none) ∧ (∃ s : State, s.rxisrEnabled = true ∧ s.rx.head = some 0 ∧ s.rx.tail = none) ∧
    (∃ s : State, s.txisrEnabled = true ∧ s.tx.head = some 0 ∧ s.tx.tail = none) := by
  refine ⟨by decide, by decide,
    ⟨{ idle with rx := { buf := [], head := some 0, tail := none }, tx := { buf := [], head := some 0, tail := none } }, by decide⟩,
    ⟨{ idle with rx := { buf := [], head := some 1, tail := some 0 } }, by decide⟩,
    ⟨{ busy with tx := { buf := [], head := some 0, tail := some 3 } }, by decide⟩,
    ⟨{ idle with gie := true, rxie := true, rxifg := true }, by decide⟩,
    ⟨{ busy with rx := { buf := [], head := some 0, tail := none } }, by decide⟩,
    ⟨{ busy with tx := { buf := [], head := some 0, tail := none } }, by decide⟩⟩

theorem witness_FResetZeroesIndices :
    idle.gie = false ∧ (ready.gie = true ∧ ready.handlerEnable .tx = false) ∧ ready.gie = true ∧ ready.handlerEnable .rx = true := by
  decide

/-- The last clause meets the boundary `head = N - 1`, the one before it a full FIFO. -/
theorem witness_FTrypushAppendsOrReportsFull :
    (ready.gie = true ∧ ready.rxie = true) ∧ (idle.gie = false ∧ (idle.fifo .rx).head = none) ∧
    ((withRx 0 1).gie = false ∧ ((withRx 0 1).fifo .rx).head = some 0 ∧ ((withRx 0 1).fifo .rx).tail = some 1 ∧
      nextIndex ((withRx 0 1).params.size .rx) 0 = 1) ∧
    ((withRx 3 1).gie = false ∧ ((withRx 3 1).fifo .rx).head = some 3 ∧ ((withRx 3 1).fifo .rx).tail = some 1 ∧
      nextIndex ((withRx 3 1).params.size .rx) 3 ≠ 1) := by decide

theorem witness_FTrypopTakesOldestOrReportsEmpty :
    (busy.gie = true ∧ busy.txie = true) ∧ ((idle.fifo .rx).head = none) ∧
    (((withRx 0 0).fifo .rx).head = some 0 ∧ ((withRx 0 0).fifo .rx).tail = some 0) ∧
    (((withRx 0 3).fifo .rx).head = some 0 ∧ ((withRx 0 3).fifo .rx).tail = some 3 ∧
      ((withRx 0 3).fifo .rx).buf.read (nextIndex ((withRx 0 3).params.size .rx) 3) = some 0x44) := by decide

theorem witness_FPeekShowsOldest :
    (idle.fifo .tx).head = none ∧ (((withRx 3 3).fifo .rx).head = some 3 ∧ ((withRx 3 3).fifo .rx).tail = some 3) ∧
    (((withRx 0 3).fifo .rx).head = some 0 ∧ ((withRx 0 3).fifo .rx).tail = some 3 ∧
      ((withRx 0 3).fifo .rx).buf.read (nextIndex ((withRx 0 3).params.size .rx) 3) = some 0x44) := by decide

theorem witness_FAvailReturnsCount :
    (idle.fifo .tx).head = none ∧ ((withRx 0 1).fifo .rx).head = some 0 ∧ ((withRx 0 1).fifo .rx).tail = some 1 := by decide

theorem witness_FFlushSetsTailToHead :
    (busy.gie = true ∧ busy.txie = true) ∧ (idle.fifo .rx).head = none ∧ ((withRx 2 0).fifo .rx).head = some 2 := by decide

theorem witness_RoleViolationExactlyOutsideAdmission :
    (∃ t, exec (.fReset .rx) (withRx 3 1) = .next t) ∧ (∃ t, exec (.fTrypush .rx 0x45) (withRx 3 1) = .next t) ∧
    (∃ t, exec (.fTrypop .rx) (withRx 3 1) = .next t) ∧ (∃ t, exec (.fPeek .rx) (withRx 3 1) = .next t) ∧
    (∃ t, exec (.fAvail .rx) (withRx 3 1) = .next t) ∧ (∃ t, exec (.fFlush .rx) (withRx 3 1) = .next t) ∧
    (idle.fifo .rx).head = none :=
  ⟨⟨_, rfl⟩, ⟨_, rfl⟩, ⟨_, rfl⟩, ⟨_, rfl⟩, ⟨_, rfl⟩, ⟨_, rfl⟩, rfl⟩

theorem witness_FifoInstructionsFrame :
    (∃ t, exec (.fReset .tx) (withRx 3 1) = .next t) ∧
    (∃ t, exec (.fTrypush .rx 0x45) (withRx 3 1) = .next t ∧ (t.fifo .rx).buf.read 0 = some 0x45 ∧ (t.fifo .rx).buf.read 1 = some 0x41) ∧
    (∃ t, exec (.fFlush .rx) (withRx 3 1) = .next t) :=
  ⟨⟨_, rfl⟩, ⟨_, rfl, rfl, rfl⟩, ⟨_, rfl⟩⟩

/-- The quotient at both ends of its range, and the three ways to be refused. -/
theorem witness_InitBringsTransportUp :
    (idle.gie = false ∧ 0 < idle.params.baud ∧ idle.params.fClk / idle.params.baud < 2 ^ 16) ∧
    (∃ s : State, s.gie = false ∧ 0 < s.params.baud ∧ s.params.fClk / s.params.baud = 65535) ∧
    (ready.gie = true ∧ ready.rxie = true ∧ 0 < ready.params.baud ∧ ready.params.fClk / ready.params.baud < 2 ^ 16) ∧
    (∃ s : State, s.gie = false ∧ 2 ^ 16 ≤ s.params.fClk / s.params.baud) ∧
    (∃ s : State, s.gie = true ∧ s.rxie = true ∧ s.params.baud = 0) := by
  refine ⟨by decide, ⟨{ idle with params := { rxExp := 1, txExp := 1, fClk := 65535, baud := 1 } }, by decide⟩, by decide,
    ⟨{ idle with params := { rxExp := 1, txExp := 1, fClk := 65536, baud := 1 } }, by decide⟩,
    ⟨{ ready with params := { rxExp := 1, txExp := 1, fClk := 1, baud := 0 } }, by decide⟩⟩

theorem witness_PutQueuesWaitsAndKicks :
    (idle.mphase = .zero ∧ idle.tx.head = none) ∧
    (∃ s : State, s.mphase = .zero ∧ s.tx.head = some 3 ∧ s.tx.tail = some 1 ∧ nextIndex (s.params.size .tx) 3 ≠ 1) ∧
    (∃ s : State, s.mphase = .zero ∧ s.tx.head = some 3 ∧ s.tx.tail = some 0 ∧ nextIndex (s.params.size .tx) 3 = 0) ∧
    (∃ s : State, s.mphase = .one ∧ s.txie = false) ∧ (∃ s : State, s.mphase = .one ∧ s.txie = true) := by
  refine ⟨by decide, ⟨{ ready with tx := ring 3 1 }, by decide⟩, ⟨{ ready with tx := ring 3 0 }, by decide⟩,
    ⟨{ ready with mphase := .one }, by decide⟩, ⟨{ busy with mphase := .one }, by decide⟩⟩

theorem witness_GetTakesOldestWithError :
    (idle.mphase = .zero ∧ idle.rx.head = none) ∧ (ready.mphase = .zero ∧ ready.rx.head = some 0 ∧ ready.rx.tail = some 0) ∧
    ((withRx 0 3).mphase = .zero ∧ (withRx 0 3).rx.head = some 0 ∧ (withRx 0 3).rx.tail = some 3 ∧
      (withRx 0 3).rx.buf.read (nextIndex ((withRx 0 3).params.size .rx) 3) = some 0x44) ∧
    (∃ s : State, s.mphase = .one ∧ s.mtmp = some 0x61) := by
  refine ⟨by decide, by decide, by decide, ⟨{ ready with mphase := .one, mtmp := some 0x61 }, by decide⟩⟩

theorem witness_PeekShowsErrorWithoutClearing :
    idle.rx.head = none ∧ (ready.rx.head = some 0 ∧ ready.rx.tail = some 0) ∧
    ((withRx 0 3).rx.head = some 0 ∧ (withRx 0 3).rx.tail = some 3 ∧
      (withRx 0 3).rx.buf.read (nextIndex ((withRx 0 3).params.size .rx) 3) = some 0x44) := by decide

/-- On an empty FIFO and on one that holds a byte. -/
theorem witness_PeekAgreesWithNextGet :
    (∃ p u, ready.mphase = .zero ∧ exec .peek ready = .next p ∧ exec .get ready = .next u) ∧
    (∃ p u, busy.mphase = .zero ∧ exec .peek busy = .next p ∧ exec .get busy = .next u ∧ u.mphase = .one) :=
  ⟨⟨_, _, rfl, rfl, rfl⟩, ⟨_, _, rfl, rfl, rfl, rfl⟩⟩

theorem witness_AvailAndFlushWorkOnRx :
    idle.rx.head = none ∧ (withRx 0 1).rx.head = some 0 ∧ (withRx 0 1).rx.tail = some 1 := by decide

theorem witness_TransportCommandsFrame :
    (∃ t, exec (.put 0x4F) busy = .next t) ∧ (∃ t, exec (.put 0x4F) { busy with mphase := .one } = .next t) ∧
    (∃ t, exec .get busy = .next t) ∧ (∃ t, exec .peek busy = .next t) ∧ (∃ t, exec .avail busy = .next t) ∧
    (∃ t, exec .flush busy = .next t) ∧ (∃ t, exec .init idle = .next t) :=
  ⟨⟨_, rfl⟩, ⟨_, rfl⟩, ⟨_, rfl⟩, ⟨_, rfl⟩, ⟨_, rfl⟩, ⟨_, rfl⟩, ⟨_, rfl⟩⟩

theorem witness_AtomExitPopsAndSets : (∃ s : State, s.atomStack = true :: []) ∧ idle.atomStack = [] :=
  ⟨⟨{ idle with atomStack := [true] }, rfl⟩, rfl⟩

theorem witness_SectionRestoresGie :
    ∃ t v, exec .atomEnterNonatomic idle = .next t ∧ { t with gie := false }.atomStack = t.atomStack ∧
      exec .atomExitRestore { t with gie := false } = .next v := ⟨_, _, rfl, rfl, rfl⟩

theorem witness_GieMovedOnlyByAtomicSections :
    ∃ t, exec .evMstep (running 0xE000) = .next t ∧ ¬ sameSection (running 0xE000) t :=
  ⟨_, rfl, by rintro ⟨h, -⟩; cases h⟩

/-- On a full FIFO and on one with room, both status bits set. -/
theorem witness_RxisrPushesOrDrops :
    (busy.gie = true ∧ busy.rxie = true ∧ busy.rxifg = true ∧ busy.rxbuf = some 0x62 ∧ busy.rxfe = some true ∧
      busy.rxoe = some true ∧ busy.rx.head = some 1 ∧ busy.rx.tail = some 0 ∧ nextIndex (busy.params.size .rx) 1 ≠ 0) ∧
    (∃ s : State, s.gie = true ∧ s.rxie = true ∧ s.rxifg = true ∧ s.rxbuf = some 0x64 ∧ s.rxfe = some false ∧
      s.rxoe = some false ∧ s.rx.head = some 3 ∧ s.rx.tail = some 0 ∧ nextIndex (s.params.size .rx) 3 = 0) := by
  refine ⟨by decide, ⟨arrived 3 0 0x64 false false .none, by decide⟩⟩

theorem witness_TxisrSendsOrSwitchesOff :
    (∃ s : State, s.gie = true ∧ s.txie = true ∧ s.txifg = true ∧ s.tx.head = some 2 ∧ s.tx.tail = some 2) ∧
    (∃ s : State, s.gie = true ∧ s.txie = true ∧ s.txifg = true ∧ s.tx.head = some 0 ∧ s.tx.tail = some 3 ∧
      s.tx.buf.read (nextIndex (s.params.size .tx) 3) = some 0x44) := by
  refine ⟨⟨{ busy with tx := ring 2 2 }, by decide⟩, ⟨{ busy with tx := ring 0 3 }, by decide⟩⟩

theorem witness_EnvironmentEventsSetFlags : idle.txifg = false ∧ busy.txifg = true := by decide

theorem witness_HandlersFrame : (∃ t, exec .evRxisr busy = .next t) ∧ ∃ t, exec .evTxisr busy = .next t := ⟨⟨_, rfl⟩, ⟨_, rfl⟩⟩

theorem witness_HandlersCommute : ∃ s₁ s₂, exec .evRxisr busy = .next s₁ ∧ exec .evTxisr busy = .next s₂ := ⟨_, _, rfl, rfl⟩

theorem witness_AdmittedMainStepCompletes :
    (running 0x904F).Inv ∧ (running 0x904F).rx.started ∧ (running 0x904F).tx.started ∧
    (running 0x904F).command = some (.put 0x4F) ∧ commandAdmitted (.put 0x4F) (running 0x904F) :=
  ⟨running_inv _, ⟨rfl, rfl⟩, ⟨rfl, rfl⟩, by decide, trivial⟩

theorem witness_MpcStaysOnlyInTwoPhaseCommands :
    (∃ t, exec .evMstep (running 0xA000) = .next t ∧ t.mpc = 0) ∧ ∃ t, exec .evMstep (running 0xB000) = .next t ∧ t.mpc = 1 :=
  ⟨⟨_, rfl, rfl⟩, ⟨_, rfl, rfl⟩⟩

theorem witness_PutHangsWithInterruptsOff :
    ∃ s : State, s.gie = false ∧ s.command = some (.put 0x4F) ∧ s.mphase = .zero ∧ s.tx.head = some 3 ∧ s.tx.tail = some 0 ∧
      nextIndex (s.params.size .tx) 3 = 0 ∧ ∃ t, exec (.evRxarrive 0 false false) s = .next t :=
  ⟨{ running 0x904F with gie := false, tx := ring 3 0 }, rfl, by decide, rfl, rfl, rfl, by decide, _, rfl⟩

theorem witness_LastErrorWriters :
    ∃ t, exec .evRxisr (arrived 3 0 0x64 false false .none) = .next t ∧
      t.lastError ≠ (arrived 3 0 0x64 false false .none).lastError := ⟨_, rfl, by decide⟩

theorem witness_WireGrowsOnlyByTxisr : ∃ t, exec .evTxisr busy = .next t ∧ t.wireOut = [0x41] := ⟨_, rfl, rfl⟩

theorem witness_FifoFunctionsOnContents : (ring 1 2).Valid (2 ^ (1 + 1)) ∧ (ring 1 2).started :=
  ⟨ring_valid (by decide) (by decide), rfl, rfl⟩

theorem witness_FifoLaw : (ring 0 1).Valid (2 ^ (1 + 1)) ∧ (ring 0 1).started :=
  ⟨ring_valid (by decide) (by decide), rfl, rfl⟩

theorem witness_CapacityLaw :
    ((ring 3 3).Valid (2 ^ (1 + 1)) ∧ (ring 3 3).started ∧ (ring 3 3).contents (2 ^ (1 + 1)) = [] ∧
      [0x61#8, 0x62, 0x63].length = 2 ^ (1 + 1) - 1) ∧
    ∃ s : State, s.Inv ∧ s.rx.started ∧ s.rxisrEnabled = true ∧ (s.contents .rx).length = s.params.size .rx - 1 :=
  ⟨⟨ring_valid (by decide) (by decide), ⟨rfl, rfl⟩, by decide, by decide⟩,
    { busy with rx := ring 2 3 },
    { busy_inv with rxValid := ring_valid (by decide) (by decide), rxieStarted := fun _ => ⟨rfl, rfl⟩ }, ⟨rfl, rfl⟩, by decide, by decide⟩

theorem witness_StepKeepsInvariant : (running 0x904F).Inv ∧ ∃ t, step (running 0x904F) = .next t := ⟨running_inv _, _, rfl⟩

theorem witness_NoFaultOnceFifosReset :
    (running 0xA000).Inv ∧ (running 0xA000).rx.started ∧ (running 0xA000).tx.started ∧ ∃ t, step (running 0xA000) = .next t :=
  ⟨running_inv _, ⟨rfl, rfl⟩, ⟨rfl, rfl⟩, _, rfl⟩

theorem witness_StepKeepsKickInvariant :
    (running 0x904F).Inv ∧ txThroughPutOnly (running 0x904F).prog ∧ (running 0x904F).kickInv ∧ ∃ t, step (running 0x904F) = .next t := by
  refine ⟨running_inv _, ?_, (fun h => Bool.noConfusion h), _, rfl⟩
  intro w hw i hi
  have h : decodeWord 0x904F = some (.put 0x4F) := by decide
  rw [List.mem_singleton.1 hw, h] at hi
  cases hi
  simp

/-- A PUT and an F.TRYPUSH that find room, a PUT that finds none, and a step of the handler. -/
theorem witness_NoQueuedByteLostOrRepeated :
    ((running 0x904F).Inv ∧ (∃ t, exec .evMstep (running 0x904F) = .next t) ∧ ¬ eventDiscardsTx .evMstep (running 0x904F) ∧
      queuesTx .evMstep (running 0x904F) 0x4F) ∧
    ((∃ t, exec .evMstep (running 0x2841) = .next t) ∧ queuesTx .evMstep (running 0x2841) 0x41) ∧
    ((∃ t, exec .evMstep { running 0x904F with tx := ring 3 0 } = .next t) ∧
      ¬ ({ running 0x904F with tx := ring 3 0 } : State).tx.hasRoom 4) ∧
    (busy.Inv ∧ (∃ t, exec .evTxisr busy = .next t) ∧ ¬ eventDiscardsTx .evTxisr busy ∧ ∀ b, ¬ queuesTx .evTxisr busy b) := by
  refine ⟨⟨running_inv _, ⟨_, rfl⟩, ?_, rfl, ⟨1, 0, rfl, rfl, by decide⟩, .inl ⟨by decide, rfl⟩⟩,
    ⟨⟨_, rfl⟩, rfl, ⟨1, 0, rfl, rfl, by decide⟩, .inr (by decide)⟩, ⟨⟨_, rfl⟩, ?_⟩,
    busy_inv, ⟨_, rfl⟩, (by rintro ⟨h, -⟩; cases h), (by rintro b ⟨h, -⟩; cases h)⟩
  · rintro ⟨-, c, hc, hd⟩
    have h : (running 0x904F).command = some (.put 0x4F) := by decide
    rw [h] at hc
    cases hc
    cases hd
  · rintro ⟨h, t, hh, ht, hn⟩
    cases hh
    cases ht
    exact hn (by decide)

theorem witness_AlternatingScheduleSendsAllQueued :
    ∃ s : State, s.tx.Valid (s.params.size .tx) ∧ s.tx.started ∧ s.gie = true ∧ s.txie = true ∧ s.txifg = true ∧
      (s.contents .tx).length = 3 ∧ s.sched = (List.replicate 3 [0x7300#16, 0x7100#16]).flatten ++ [] :=
  ⟨{ busy with tx := ring 2 3, sched := [0x7300, 0x7100, 0x7300, 0x7100, 0x7300, 0x7100] },
    ring_valid (by decide) (by decide), ⟨rfl, rfl⟩, rfl, rfl, rfl, by decide, by decide⟩

/-- The events of a fair run that sends the one byte queued in `busy`, and then receives for ever. -/
def fairEvents : Nat → Instr
  | 0 => .evTxisr
  | 1 => .evTxready
  | 2 => .evTxisr
  | _ + 3 => .evRxarrive 0 false false

/-- The states of that run. -/
def fairRun : Nat → State
  | 0 => busy
  | 1 => { busy with tx := ring 1 1, txbuf := some 0x41, wireOut := [0x41], txifg := false }
  | 2 => { busy with tx := ring 1 1, txbuf := some 0x41, wireOut := [0x41] }
  | 3 => { busy with tx := ring 1 1, txbuf := some 0x41, wireOut := [0x41], txie := false }
  | _ + 4 =>
    { busy with tx := ring 1 1, txbuf := some 0x41, wireOut := [0x41], txie := false, rxbuf := some 0, rxfe := some false, rxoe := some false }

theorem witness_FairRunSendsAllQueued :
    IsRun fairEvents fairRun ∧ weaklyFairTo State.txreadyEnabled .evTxready fairEvents fairRun ∧
    weaklyFairTo State.txisrEnabled .evTxisr fairEvents fairRun ∧ (∀ n, (fairRun n).gie = true) ∧
    (∀ n, ¬ eventDiscardsTx (fairEvents n) (fairRun n)) ∧ (fairRun 0).Inv ∧ (fairRun 0).txie = true := by
  refine ⟨?_, ?_, ?_, ?_, ?_, busy_inv, rfl⟩
  · intro n
    match n with
    | 0 => exact ⟨rfl, rfl⟩
    | 1 => exact ⟨rfl, rfl⟩
    | 2 => exact ⟨rfl, rfl⟩
    | 3 => exact ⟨rfl, rfl⟩
    | _ + 4 => exact ⟨rfl, rfl⟩
  · intro n h
    cases h (n + 4) (Nat.le_add_right n 4)
  · intro n h
    cases h (n + 4) (Nat.le_add_right n 4)
  · intro n
    match n with
    | 0 => rfl
    | 1 => rfl
    | 2 => rfl
    | 3 => rfl
    | _ + 4 => rfl
  · intro n h
    match n with
    | 0 => cases h.1
    | 1 => cases h.1
    | 2 => cases h.1
    | _ + 3 => cases h.1

/-- The smallest FIFO, full, and a PUT that waits for room in it. -/
def waiting : State :=
  { busy with params := { rxExp := 1, txExp := 0, fClk := 1, baud := 1 }, tx := { buf := [(0, 0x41), (1, 0x42)], head := some 1, tail := some 0 },
              rxie := false, prog := [0x904F] }

theorem waiting_inv : waiting.Inv where
  rxValid := busy_inv.rxValid
  txValid :=
    { canonical := by show Memory.wf [(0, 0x41), (1, 0x42)]; decide
      inRange := by show ∀ c ∈ [((0 : Nat), (0x41 : Byte)), (1, 0x42)], c.1 < 2; decide
      together := rfl
      headLt := by intro x hx; cases hx; decide
      tailLt := by intro x hx; cases hx; decide
      live := by intro x y hx hy; cases hx; cases hy; decide }
  rxieStarted := by intro h; cases h
  txieStarted := fun _ => ⟨rfl, rfl⟩
  rxifgFull := fun _ => ⟨rfl, rfl, rfl⟩
  latched := by decide
  mpcLe := by decide
  phaseOne := by intro h; cases h

/-- The events of a run fair as R217 says: the byte is sent, the PUT queues its own and completes, that is sent, and then bytes arrive
for ever. -/
def liveEvents : Nat → Instr
  | 0 => .evTxisr
  | 1 => .evMstep
  | 2 => .evMstep
  | 3 => .evTxready
  | 4 => .evTxisr
  | 5 => .evTxready
  | 6 => .evTxisr
  | _ + 7 => .evRxarrive 0 false false

/-- The states of that run. -/
def liveRun : Nat → State
  | 0 => waiting
  | n + 1 => (after (exec (liveEvents n) (liveRun n)) (fun t => t)).getD waiting

/-- From its eighth state on the run stands still. -/
theorem liveRun_still (n : Nat) : liveRun (n + 8) = liveRun 8 := by
  induction n with
  | zero => rfl
  | succ n ih =>
    rw [show n + 1 + 8 = (n + 8) + 1 from rfl, liveRun, ih]
    rfl

theorem witness_FairRunSendsQueuedAndCompletesPut :
    IsRun liveEvents liveRun ∧ Fair liveEvents liveRun ∧ (liveRun 0).Inv ∧ (liveRun 0).kickInv ∧ txThroughPutOnly (liveRun 0).prog ∧
    (∀ n, ¬ eventDiscardsTx (liveEvents n) (liveRun n)) ∧ (liveRun 0).command = some (.put 0x4F) := by
  have cmd : waiting.command = some (.put 0x4F) := by decide
  have dis : ∀ {s : State}, s.command = some (.put 0x4F) → ¬ eventDiscardsTx .evMstep s := by
    rintro s hs ⟨-, c, hc, hd⟩
    rw [hs] at hc
    cases hc
    cases hd
  have idles : ∀ {en : State → Bool} {i : Instr}, en (liveRun 8) = false → weaklyFairTo en i liveEvents liveRun := by
    intro en i h n hn
    have := hn (n + 8) (Nat.le_add_right n 8)
    rw [liveRun_still, h] at this
    cases this
  refine ⟨?_, ⟨idles rfl, idles rfl, idles rfl, idles rfl, fun n => ⟨n + 8, Nat.le_add_right n 8, ?_⟩⟩, waiting_inv,
    (fun h => Bool.noConfusion h), ?_, ?_, cmd⟩
  · intro n
    match n with
    | 0 => exact ⟨rfl, rfl⟩
    | 1 => exact ⟨rfl, rfl⟩
    | 2 => exact ⟨rfl, rfl⟩
    | 3 => exact ⟨rfl, rfl⟩
    | 4 => exact ⟨rfl, rfl⟩
    | 5 => exact ⟨rfl, rfl⟩
    | 6 => exact ⟨rfl, rfl⟩
    | 7 => exact ⟨rfl, rfl⟩
    | k + 8 => exact ⟨rfl, rfl⟩
  · rw [liveRun_still]
    rfl
  · intro w hw i hi
    have h : decodeWord 0x904F = some (.put 0x4F) := by decide
    rw [List.mem_singleton.1 hw, h] at hi
    cases hi
    simp
  · intro n
    match n with
    | 0 => exact by rintro ⟨h, -⟩; cases h
    | 1 => exact dis (by decide)
    | 2 => exact dis (by decide)
    | 3 => exact by rintro ⟨h, -⟩; cases h
    | 4 => exact by rintro ⟨h, -⟩; cases h
    | 5 => exact by rintro ⟨h, -⟩; cases h
    | 6 => exact by rintro ⟨h, -⟩; cases h
    | _ + 7 => exact by rintro ⟨h, -⟩; cases h

/-- With nothing queued, and (R251, D30) with a byte queued and interrupts off after `INIT; PUT`. -/
theorem witness_EndedRunHasNoStepLeft :
    idle.ended ∧ idle.endedForTransmit ∧ ({ busy with gie := false } : State).ended ∧ ¬ ({ busy with gie := false } : State).endedForTransmit :=
  ⟨⟨rfl, rfl, rfl⟩, ⟨⟨rfl, rfl, rfl⟩, by decide, rfl⟩, ⟨rfl, rfl, rfl⟩, fun h => by cases h.2.2⟩

/-- An editor within a line, the cursor inside it and room for one more character. -/
def typed : LineEditor :=
  { capacity := 4, backspace := 0x08, line := [0x61, 0x62, 0xFF, 0xFF], len := 2, position := 1, mode := .running }

theorem typed_bounded : typed.Bounded where
  capacityGe := by decide
  backspaceCtl := by decide
  cells := rfl
  positionLe := by decide
  lenLe := by decide
  terminated := by intro h; cases h

theorem witness_EditorKeepsBounds : (2 ≤ 2 ∧ ¬ printable 0x7F) ∧ typed.Bounded := ⟨by decide, typed_bounded⟩

/-- The longest line a buffer of three takes, of the first and the last printable byte. -/
theorem witness_EditorReturnsTypedLine :
    2 ≤ 3 ∧ ¬ printable 0x08 ∧ (0x08 : Byte) ≠ 0x0D ∧ (∀ c ∈ [0x20#8, 0x7E#8], printable c) ∧ [0x20#8, 0x7E#8].length ≤ 3 - 1 := by
  decide

theorem witness_EditorBackspaceUndoesInsert :
    typed.Bounded ∧ typed.mode = .running ∧ typed.len < typed.capacity - 1 ∧ printable 0x7E :=
  ⟨typed_bounded, rfl, by decide, by decide⟩

theorem witness_EditorDrainIsIdempotent :
    (∃ e : LineEditor, e.mode = .lineReady) ∧ typed.mode ≠ .lineReady := ⟨⟨{ typed with mode := .lineReady }, rfl⟩, by decide⟩

end Sys2Proof.Machine
end

section
/-! The step runs what the schedule names (00_scope.md R10, 30_encoding.md R104). -/

namespace Sys2Proof.Machine

/-- The converse of `fetchEvent_ok`: a schedule word that decodes to an event is taken. -/
theorem fetchEvent_of_isEvent {s : State} {w : Word} {rest : List Word} {i : Instr}
    (hsched : s.sched = w :: rest) (hdec : decodeWord w = some i) (hev : i.isEvent = true) :
    fetchEvent s = .ok (i, { s with sched := rest }) := by
  simp only [fetchEvent, hsched, hdec, hev, if_true]

theorem step_of_fetchEvent_ok {s t : State} {i : Instr} (h : fetchEvent s = .ok (i, t)) :
    step s = exec i t := by
  simp only [step, h]

/-- Settles O7: the word is fetched as its event, and the step runs what was fetched. -/
theorem stepRunsScheduledEvent : Obligations.StepRunsScheduledEvent := by
  intro s w rest i hsched hdec hev
  exact step_of_fetchEvent_ok (fetchEvent_of_isEvent hsched hdec hev)

end Sys2Proof.Machine
end

section
/-! Slot arithmetic: on a size that is a power of two, masking is reduction modulo the size (20_memory.md R61, 40_ring_buffer.md
R125, R129), and how the count `(n + head - tail) % n` moves with its indices. -/

namespace Sys2Proof.Machine

/-- The sizes a FIFO can have: the powers of two from 2 on (R7). -/
def IsFifoSize (n : Nat) : Prop := ∃ e, n = 2 ^ (e + 1)

theorem isFifoSize_two_pow (e : Nat) : IsFifoSize (2 ^ (e + 1)) := ⟨e, rfl⟩

theorem isFifoSize_size (p : Params) (sel : Sel) : IsFifoSize (p.size sel) := by
  cases sel <;> exact isFifoSize_two_pow _

theorem IsFifoSize.pos {n : Nat} (hn : IsFifoSize n) : 0 < n := by
  obtain ⟨e, rfl⟩ := hn
  exact Nat.two_pow_pos _

theorem IsFifoSize.nextIndex_eq {n : Nat} (hn : IsFifoSize n) (i : Nat) : nextIndex n i = (i + 1) % n := by
  obtain ⟨e, rfl⟩ := hn
  exact Nat.and_two_pow_sub_one_eq_mod _ _

theorem IsFifoSize.countBetween_eq {n : Nat} (hn : IsFifoSize n) (hd tl : Nat) :
    countBetween n hd tl = (n + hd - tl) % n := by
  obtain ⟨e, rfl⟩ := hn
  exact Nat.and_two_pow_sub_one_eq_mod _ _

/-- One reduction: below twice the modulus, the remainder is the number itself or the number less the modulus. -/
theorem mod_of_lt_two_mul {a n : Nat} (h : a < 2 * n) : (a < n ∧ a % n = a) ∨ (n ≤ a ∧ a % n = a - n) := by
  rcases Nat.lt_or_ge a n with hlt | hge
  · exact .inl ⟨hlt, Nat.mod_eq_of_lt hlt⟩
  · exact .inr ⟨hge, by rw [Nat.mod_eq_sub_mod hge, Nat.mod_eq_of_lt (by omega)]⟩

section Indices

variable {n hd tl : Nat} (hhd : hd < n) (htl : tl < n)

include hhd htl

/-- The count is 0 exactly where the indices meet. -/
theorem count_eq_zero_iff : (n + hd - tl) % n = 0 ↔ hd = tl := by
  have := mod_of_lt_two_mul (show n + hd - tl < 2 * n by omega)
  omega

/-- The count is `n - 1` exactly where the slot after `head` is `tail`. -/
theorem count_eq_full_iff : (n + hd - tl) % n = n - 1 ↔ (hd + 1) % n = tl := by
  have := mod_of_lt_two_mul (show n + hd - tl < 2 * n by omega)
  have := mod_of_lt_two_mul (show hd + 1 < 2 * n by omega)
  omega

/-- Publishing one more slot adds one to the count. -/
theorem count_succ_head (hfull : (hd + 1) % n ≠ tl) : (n + (hd + 1) % n - tl) % n = (n + hd - tl) % n + 1 := by
  have hslot := mod_of_lt_two_mul (show hd + 1 < 2 * n by omega)
  have := mod_of_lt_two_mul (show n + hd - tl < 2 * n by omega)
  have := mod_of_lt_two_mul (show n + (hd + 1) % n - tl < 2 * n by omega)
  omega

/-- Taking one slot takes one from the count. -/
theorem count_succ_tail (hne : hd ≠ tl) : (n + hd - tl) % n = (n + hd - (tl + 1) % n) % n + 1 := by
  have hslot := mod_of_lt_two_mul (show tl + 1 < 2 * n by omega)
  have := mod_of_lt_two_mul (show n + hd - tl < 2 * n by omega)
  have := mod_of_lt_two_mul (show n + hd - (tl + 1) % n < 2 * n by omega)
  omega

/-- The slot just past the contents is the one after `head`. -/
theorem slot_count : (tl + 1 + (n + hd - tl) % n) % n = (hd + 1) % n := by
  have hcount := mod_of_lt_two_mul (show n + hd - tl < 2 * n by omega)
  have := mod_of_lt_two_mul (show tl + 1 + (n + hd - tl) % n < 2 * n by omega)
  have := mod_of_lt_two_mul (show hd + 1 < 2 * n by omega)
  omega

/-- No slot of the contents is the one after `head`. -/
theorem slot_ne_next {k : Nat} (hk : k < (n + hd - tl) % n) : (tl + 1 + k) % n ≠ (hd + 1) % n := by
  have hcount := mod_of_lt_two_mul (show n + hd - tl < 2 * n by omega)
  have := mod_of_lt_two_mul (show tl + 1 + k < 2 * n by omega)
  have := mod_of_lt_two_mul (show hd + 1 < 2 * n by omega)
  omega

end Indices

/-- Seen from the next tail, slot `k` is slot `k + 1`. -/
theorem slot_succ_tail (n tl k : Nat) : ((tl + 1) % n + 1 + k) % n = (tl + 1 + (k + 1)) % n := by
  rw [Nat.add_assoc, Nat.mod_add_mod, Nat.add_comm 1 k]

end Sys2Proof.Machine
end

section
/-! The six FIFO functions keep a FIFO as the rules leave it (10_state.md R21 to R23, R129), answer where it was reset, and are
the queue operations on its contents (R39). -/

namespace Sys2Proof.Machine

/-! ## Contents -/

theorem Fifo.started_iff {f : Fifo} : f.started ↔ ∃ hd tl, f.head = some hd ∧ f.tail = some tl := by
  simp [Fifo.started, Option.isSome_iff_exists]

theorem Fifo.contents_eq {n hd tl : Nat} {f : Fifo} (hh : f.head = some hd) (ht : f.tail = some tl) :
    f.contents n = (List.range ((n + hd - tl) % n)).filterMap fun k => f.buf.read ((tl + 1 + k) % n) := by
  simp only [Fifo.contents, hh, ht]

/-- Every slot of the contents of a valid FIFO holds a byte (R23), so there are as many bytes as slots. -/
theorem Fifo.Valid.length_contents {n hd tl : Nat} {f : Fifo} (hv : f.Valid n) (hh : f.head = some hd)
    (ht : f.tail = some tl) : (f.contents n).length = (n + hd - tl) % n := by
  rw [Fifo.contents_eq hh ht]
  refine (List.filterMap_length_eq_length.2 fun k hk => ?_).trans List.length_range
  exact hv.live hd tl hh ht k (List.mem_range.1 hk)

/-- Indices that meet hold nothing between them. -/
theorem Fifo.contents_eq_nil {n i : Nat} {f : Fifo} (hh : f.head = some i) (ht : f.tail = some i) :
    f.contents n = [] := by
  simp [Fifo.contents_eq hh ht]

/-! ## What each function keeps -/

section Kept

variable {n : Nat} {f g : Fifo}

theorem Fifo.started_reset (f : Fifo) : f.reset.started := ⟨rfl, rfl⟩

theorem Fifo.Valid.reset (hn : IsFifoSize n) (hv : f.Valid n) : f.reset.Valid n where
  canonical := hv.canonical
  inRange := hv.inRange
  together := rfl
  headLt := by simp [Fifo.reset, hn.pos]
  tailLt := by simp [Fifo.reset, hn.pos]
  live := by simp [Fifo.reset]

/-- Both indices on one slot below `n`: nothing is held, so nothing has to be live. -/
theorem Fifo.Valid.flush (hv : f.Valid n) (h : f.flush = .ok g) : g.Valid n := by
  obtain ⟨hd, hh, rfl⟩ := Fifo.flush_cases h
  exact
    { canonical := hv.canonical
      inRange := hv.inRange
      together := by simp [hh]
      headLt := hv.headLt
      tailLt := by simpa using hv.headLt hd hh
      live := by simp [hh] }

/-- The slot a push publishes was written by it, and the slots held before lie elsewhere. -/
theorem Fifo.Valid.tryPush {b : Byte} {ok : Bool} (hn : IsFifoSize n) (hv : f.Valid n)
    (h : f.tryPush n b = .ok (ok, g)) : g.Valid n := by
  obtain ⟨hd, tl, hh, ht, ⟨-, -, rfl⟩ | ⟨hne, -, rfl⟩⟩ := Fifo.tryPush_cases h
  · exact hv
  · rw [hn.nextIndex_eq] at hne ⊢
    have hslot : (hd + 1) % n < n := Nat.mod_lt _ hn.pos
    exact
      { canonical := Memory.wf_write hv.canonical _ _
        inRange := fun c hc => (Memory.mem_write hc).elim (fun he => he ▸ hslot) (hv.inRange c)
        together := by simp [ht]
        headLt := by simpa using hslot
        tailLt := hv.tailLt
        live := by
          rintro _ tl' ⟨⟩ ht' k hk
          obtain rfl : tl = tl' := Option.some.inj (ht.symm.trans ht')
          have hhd := hv.headLt hd hh
          have htl := hv.tailLt tl ht
          rw [count_succ_head hhd htl hne] at hk
          rcases Nat.lt_succ_iff_lt_or_eq.1 hk with hk | rfl
          · rw [Memory.read_write_other _ _ (slot_ne_next hhd htl hk)]
            exact hv.live hd tl hh ht k hk
          · rw [slot_count hhd htl, Memory.read_write_same]
            rfl }

theorem Fifo.Valid.tryPop {r : Option Byte} (hn : IsFifoSize n) (hv : f.Valid n)
    (h : f.tryPop n = .ok (r, g)) : g.Valid n := by
  obtain ⟨hd, tl, hh, ht, ⟨-, -, rfl⟩ | ⟨hne, b, -, -, rfl⟩⟩ := Fifo.tryPop_cases h
  · exact hv
  · rw [hn.nextIndex_eq]
    exact
      { canonical := hv.canonical
        inRange := hv.inRange
        together := by simp [hh]
        headLt := hv.headLt
        tailLt := by simpa using Nat.mod_lt _ hn.pos
        live := by
          rintro hd' _ hh' ⟨⟩ k hk
          obtain rfl : hd = hd' := Option.some.inj (hh.symm.trans hh')
          have hcount := count_succ_tail (hv.headLt hd hh) (hv.tailLt tl ht) hne
          rw [slot_succ_tail]
          exact hv.live hd tl hh ht (k + 1) (by omega) }

theorem Fifo.started_of_flush (h : f.flush = .ok g) : g.started := by
  obtain ⟨hd, hh, rfl⟩ := Fifo.flush_cases h
  simp [Fifo.started, hh]

theorem Fifo.started_of_tryPush {b : Byte} {ok : Bool} (h : f.tryPush n b = .ok (ok, g)) : g.started := by
  obtain ⟨hd, tl, hh, ht, ⟨-, -, rfl⟩ | ⟨-, -, rfl⟩⟩ := Fifo.tryPush_cases h <;> simp [Fifo.started, hh, ht]

theorem Fifo.started_of_tryPop {r : Option Byte} (h : f.tryPop n = .ok (r, g)) : g.started := by
  obtain ⟨hd, tl, hh, ht, ⟨-, -, rfl⟩ | ⟨-, b, -, -, rfl⟩⟩ := Fifo.tryPop_cases h <;> simp [Fifo.started, hh, ht]

end Kept

/-! ## Where the functions answer -/

section Answers

variable {n : Nat} {f : Fifo}

/-- The slot after `tail` of a valid FIFO whose indices differ holds a byte (R23). -/
theorem Fifo.Valid.read_next_tail {hd tl : Nat} (hn : IsFifoSize n) (hv : f.Valid n) (hh : f.head = some hd)
    (ht : f.tail = some tl) (hne : hd ≠ tl) : ∃ b, f.buf.read (nextIndex n tl) = some b := by
  have hcount := count_succ_tail (hv.headLt hd hh) (hv.tailLt tl ht) hne
  rw [hn.nextIndex_eq]
  exact Option.isSome_iff_exists.1 (hv.live hd tl hh ht 0 (by omega))

theorem Fifo.started.tryPush_ok (hs : f.started) (b : Byte) : ∃ ok g, f.tryPush n b = .ok (ok, g) := by
  rcases h : f.tryPush n b with e | ⟨ok, g⟩
  · obtain ⟨hd, tl, hh, ht⟩ := Fifo.started_iff.1 hs
    simpa [hh, ht] using Fifo.tryPush_error h
  · exact ⟨ok, g, rfl⟩

theorem Fifo.Valid.tryPop_ok (hn : IsFifoSize n) (hv : f.Valid n) (hs : f.started) :
    ∃ r g, f.tryPop n = .ok (r, g) := by
  rcases h : f.tryPop n with e | ⟨r, g⟩
  · obtain hnone | hnone | ⟨hd, tl, hh, ht, hne, hslot⟩ := Fifo.tryPop_error h
    · simp [Fifo.started, hnone] at hs
    · simp [Fifo.started, hnone] at hs
    · obtain ⟨b, hb⟩ := hv.read_next_tail hn hh ht hne
      simp [hb] at hslot
  · exact ⟨r, g, rfl⟩

theorem Fifo.Valid.peek_ok (hn : IsFifoSize n) (hv : f.Valid n) (hs : f.started) : ∃ r, f.peek n = .ok r := by
  obtain ⟨r, g, h⟩ := hv.tryPop_ok hn hs
  exact ⟨r, by rw [Fifo.peek_eq_tryPop, h]; rfl⟩

theorem Fifo.started.available_ok (hs : f.started) : ∃ k, f.available n = .ok k := by
  obtain ⟨hd, tl, hh, ht⟩ := Fifo.started_iff.1 hs
  exact ⟨countBetween n hd tl, by simp only [Fifo.available, hh, ht]⟩

theorem Fifo.started.flush_ok (hs : f.started) : ∃ g, f.flush = .ok g := by
  obtain ⟨hd, tl, hh, ht⟩ := Fifo.started_iff.1 hs
  exact ⟨{ f with tail := some hd }, by simp only [Fifo.flush, hh]⟩

end Answers

/-! ## The queue operations (R39) -/

section Queue

variable {n : Nat} {f g : Fifo}

theorem Fifo.contents_reset (n : Nat) (f : Fifo) : f.reset.contents n = [] :=
  Fifo.contents_eq_nil rfl rfl

theorem Fifo.contents_flush (h : f.flush = .ok g) : g.contents n = [] := by
  obtain ⟨hd, hh, rfl⟩ := Fifo.flush_cases h
  exact Fifo.contents_eq_nil hh rfl

theorem Fifo.Valid.length_contents_le (hv : f.Valid n) (hs : f.started) : (f.contents n).length ≤ n - 1 := by
  obtain ⟨hd, tl, hh, ht⟩ := Fifo.started_iff.1 hs
  have := Nat.mod_lt (n + hd - tl) (Nat.zero_lt_of_lt (hv.headLt hd hh))
  rw [hv.length_contents hh ht]
  omega

theorem Fifo.Valid.available_eq (hn : IsFifoSize n) (hv : f.Valid n) (hs : f.started) :
    f.available n = .ok (f.contents n).length := by
  obtain ⟨k, h⟩ := hs.available_ok (n := n)
  obtain ⟨hd, tl, hh, ht, rfl⟩ := Fifo.available_cases h
  rw [h, hv.length_contents hh ht, hn.countBetween_eq]

/-- A successful push appends its byte: the slots held before keep theirs, and the new one stands just past them. -/
theorem Fifo.Valid.contents_tryPush {b : Byte} (hn : IsFifoSize n) (hv : f.Valid n)
    (h : f.tryPush n b = .ok (true, g)) : g.contents n = f.contents n ++ [b] := by
  obtain ⟨hd, tl, hh, ht, ⟨-, hok, -⟩ | ⟨hne, -, rfl⟩⟩ := Fifo.tryPush_cases h
  · simp at hok
  · rw [hn.nextIndex_eq] at hne ⊢
    have hhd := hv.headLt hd hh
    have htl := hv.tailLt tl ht
    have hlast : (f.buf.write ((hd + 1) % n) b).read ((tl + 1 + (n + hd - tl) % n) % n) = some b := by
      rw [slot_count hhd htl, Memory.read_write_same]
    rw [Fifo.contents_eq (f := ⟨_, _, _⟩) rfl ht, Fifo.contents_eq hh ht, count_succ_head hhd htl hne, List.range_succ,
      List.filterMap_append]
    congr 1
    · refine List.filterMap_congr fun k hk => ?_
      exact Memory.read_write_other _ _ (slot_ne_next hhd htl (List.mem_range.1 hk))
    · simp only [List.filterMap_cons, hlast, List.filterMap_nil]

/-- A push has room exactly while fewer than `n - 1` bytes are held (R128). -/
theorem Fifo.Valid.tryPush_eq_true_iff {b : Byte} {ok : Bool} (hn : IsFifoSize n) (hv : f.Valid n)
    (h : f.tryPush n b = .ok (ok, g)) : ok = true ↔ (f.contents n).length ≠ n - 1 := by
  obtain ⟨hd, tl, hh, ht, hcases⟩ := Fifo.tryPush_cases h
  rw [hv.length_contents hh ht, Ne, count_eq_full_iff (hv.headLt hd hh) (hv.tailLt tl ht), ← hn.nextIndex_eq]
  rcases hcases with ⟨hfull, rfl, -⟩ | ⟨hroom, rfl, -⟩
  · simp [hfull]
  · simp [hroom]

/-- A pop that returns a byte takes the oldest one. -/
theorem Fifo.Valid.contents_tryPop_some {b : Byte} (hn : IsFifoSize n) (hv : f.Valid n)
    (h : f.tryPop n = .ok (some b, g)) : f.contents n = b :: g.contents n := by
  obtain ⟨hd, tl, hh, ht, ⟨-, hr, -⟩ | ⟨hne, c, hc, hread, rfl⟩⟩ := Fifo.tryPop_cases h
  · simp at hr
  · obtain rfl : b = c := Option.some.inj hc
    rw [hn.nextIndex_eq] at hread ⊢
    rw [Fifo.contents_eq hh ht, Fifo.contents_eq (f := ⟨_, _, some _⟩) hh rfl, count_succ_tail (hv.headLt hd hh) (hv.tailLt tl ht) hne,
      List.range_succ_eq_map, List.filterMap_cons, List.filterMap_map]
    simp only [Nat.add_zero, hread, Function.comp_def, slot_succ_tail]

/-- A pop that returns nothing found the queue empty and left it so. -/
theorem Fifo.contents_tryPop_none (h : f.tryPop n = .ok (none, g)) : g = f ∧ f.contents n = [] := by
  obtain ⟨hd, tl, hh, ht, ⟨rfl, -, rfl⟩ | ⟨-, c, hc, -⟩⟩ := Fifo.tryPop_cases h
  · exact ⟨rfl, Fifo.contents_eq_nil hh ht⟩
  · simp at hc

theorem Fifo.Valid.peek_eq (hn : IsFifoSize n) (hv : f.Valid n) (hs : f.started) :
    f.peek n = .ok (f.contents n).head? := by
  obtain ⟨r, g, h⟩ := hv.tryPop_ok hn hs
  rw [Fifo.peek_eq_tryPop, h]
  cases r with
  | none => rw [(Fifo.contents_tryPop_none h).2]; rfl
  | some b => rw [hv.contents_tryPop_some hn h]; rfl

/-- A push appends while there is room, and else changes nothing. -/
theorem Fifo.Valid.tryPush_on_contents (hn : IsFifoSize n) (hv : f.Valid n) (hs : f.started) (b : Byte) :
    (∃ g, f.tryPush n b = .ok (true, g) ∧ g.contents n = f.contents n ++ [b] ∧ (f.contents n).length < n - 1) ∨
    (f.tryPush n b = .ok (false, f) ∧ (f.contents n).length = n - 1) := by
  obtain ⟨ok, g, h⟩ := hs.tryPush_ok (n := n) b
  have hroom := hv.tryPush_eq_true_iff hn h
  cases ok with
  | true => exact .inl ⟨g, h, hv.contents_tryPush hn h, lt_of_le_of_ne (hv.length_contents_le hs) (hroom.1 rfl)⟩
  | false =>
    obtain ⟨hd, tl, -, -, ⟨-, -, rfl⟩ | ⟨-, hok, -⟩⟩ := Fifo.tryPush_cases h
    · exact .inr ⟨h, by simpa using hroom⟩
    · simp at hok

/-- A pop takes the first byte, or finds none and changes nothing. -/
theorem Fifo.Valid.tryPop_on_contents (hn : IsFifoSize n) (hv : f.Valid n) (hs : f.started) :
    (f.tryPop n = .ok (none, f) ∧ f.contents n = []) ∨
    (∃ c g, f.tryPop n = .ok (some c, g) ∧ f.contents n = c :: g.contents n) := by
  obtain ⟨r, g, h⟩ := hv.tryPop_ok hn hs
  cases r with
  | none =>
    obtain ⟨rfl, hnil⟩ := Fifo.contents_tryPop_none h
    exact .inl ⟨h, hnil⟩
  | some c => exact .inr ⟨c, g, h, hv.contents_tryPop_some hn h⟩

end Queue

/-- Settles O45: each function cited by its queue law. -/
theorem fifoFunctionsOnContents : Obligations.FifoFunctionsOnContents := by
  intro e f b hv hs
  have hn := isFifoSize_two_pow e
  obtain ⟨g, hg⟩ := hs.flush_ok
  exact ⟨Fifo.contents_reset _ f, ⟨g, hg, Fifo.contents_flush hg⟩, hv.tryPush_on_contents hn hs b,
    hv.tryPop_on_contents hn hs, hv.peek_eq hn hs, hv.available_eq hn hs, hv.length_contents_le hs⟩

end Sys2Proof.Machine
end

section
/-! What running an instruction can do, said once: `exec_next` sorts every answer of `exec` into the cases of `ExecStep`, and
the frames and invariants are case splits over it. -/

namespace Sys2Proof.Machine

/-- What a step can do to a FIFO of `n` slots: leave it, or call one of its functions (10_state.md R24). -/
inductive FifoMove (n : Nat) (f : Fifo) : Fifo → Prop
  | keep : FifoMove n f f
  | reset : FifoMove n f f.reset
  | push {b : Byte} {ok : Bool} {g : Fifo} (h : f.tryPush n b = .ok (ok, g)) : FifoMove n f g
  | pop {r : Option Byte} {g : Fifo} (h : f.tryPop n = .ok (r, g)) : FifoMove n f g
  | flush {g : Fifo} (h : f.flush = .ok g) : FifoMove n f g

theorem FifoMove.valid {n : Nat} {f g : Fifo} (hn : IsFifoSize n) (h : FifoMove n f g) (hv : f.Valid n) :
    g.Valid n := by
  cases h with
  | keep => exact hv
  | reset => exact hv.reset hn
  | push h => exact hv.tryPush hn h
  | pop h => exact hv.tryPop hn h
  | flush h => exact hv.flush h

theorem FifoMove.started {n : Nat} {f g : Fifo} (h : FifoMove n f g) (hs : f.started) : g.started := by
  cases h with
  | keep => exact hs
  | reset => exact f.started_reset
  | push h => exact Fifo.started_of_tryPush h
  | pop h => exact Fifo.started_of_tryPop h
  | flush h => exact Fifo.started_of_flush h

/-- Instruction `i`, run in state `s`, is the main agent's step on command `c`: `c` itself, or EV.MSTEP with `c` at `mpc`. -/
def runsCommand (i : Instr) (s : State) (c : Instr) : Prop :=
  c.isCommand = true ∧ (i = c ∨ (i = .evMstep ∧ s.command = some c ∧ s.mpc < s.prog.length))

/-- An event that is the main agent's step is EV.MSTEP. -/
theorem runsCommand.of_isEvent {i c : Instr} {s : State} (h : runsCommand i s c) (hev : i.isEvent = true) :
    i = .evMstep ∧ s.command = some c ∧ s.mpc < s.prog.length := by
  obtain ⟨hc, rfl | hm⟩ := h
  · simp_all [Instr.isCommand, Instr.isEvent]
  · exact hm

/-- The states that instruction `i`, run in state `s`, can answer. -/
inductive ExecStep (i : Instr) (s : State) : State → Prop
  /-- A command of one step, or GET on an empty FIFO: one FIFO moved, results returned, the command completed. -/
  | ring {c : Instr} {sel : Sel} {g : Fifo} {r : List Word} (hrun : runsCommand i s c) (hput : ∀ b, c ≠ .put b)
      (hget : c = .get → s.mphase = .zero) (hmove : FifoMove (s.params.size sel) (s.fifo sel) g) :
      ExecStep i s { s.setFifo sel g with mres := r, mpc := s.mpc + 1 }
  /-- INIT (R141). -/
  | init (hrun : runsCommand i s .init) : ExecStep i s s.initialised.advance
  /-- PUT's attempt on a full FIFO (R142). -/
  | putWait {b : Byte} (hrun : runsCommand i s (.put b)) (hphase : s.mphase = .zero) : ExecStep i s s
  /-- PUT's attempt that found room (R142). -/
  | putQueue {b : Byte} {g : Fifo} (hrun : runsCommand i s (.put b)) (hphase : s.mphase = .zero)
      (hpush : s.tx.tryPush (s.params.size .tx) b = .ok (true, g)) : ExecStep i s { s with tx := g, mphase := .one }
  /-- PUT's kick (R142). -/
  | putKick {b : Byte} (hrun : runsCommand i s (.put b)) (hphase : s.mphase = .one) : ExecStep i s (putComplete b s)
  /-- GET's pop of a byte (R144). -/
  | getPop {b : Byte} {g : Fifo} (hrun : runsCommand i s .get) (hphase : s.mphase = .zero)
      (hpop : s.rx.tryPop (s.params.size .rx) = .ok (some b, g)) :
      ExecStep i s { s with rx := g, mtmp := some b, mphase := .one }
  /-- GET's attach and clear (R144). -/
  | getAttach {r : List Word} (hrun : runsCommand i s .get) (hphase : s.mphase = .one) :
      ExecStep i s { s with mres := r, mpc := s.mpc + 1, lastError := .none, mphase := .zero }
  /-- An atomic-section instruction (R161 to R165). -/
  | atom {c : Instr} {st : List Bool} {g : Bool} (hrun : runsCommand i s c) (hformat : c.format = .a) :
      ExecStep i s { s with atomStack := st, gie := g, mpc := s.mpc + 1 }
  /-- TXREADY (R215). -/
  | txready (hi : i = .evTxready) : ExecStep i s { s with txifg := true }
  /-- RXARRIVE (R214). -/
  | rxarrive {b : Byte} {fe oe : Bool} (hi : i = .evRxarrive b fe oe) :
      ExecStep i s { s with rxbuf := some b, rxfe := some fe, rxoe := some oe, rxifg := true }
  /-- RXISR with room (R206). -/
  | rxisrPush {b : Byte} {fe oe : Bool} {g : Fifo} (hi : i = .evRxisr)
      (hpush : s.rx.tryPush (s.params.size .rx) b = .ok (true, g)) :
      ExecStep i s ({ s with rxifg := false, rx := g }.latchLineError fe oe)
  /-- RXISR on a full FIFO (R206). -/
  | rxisrDrop (hi : i = .evRxisr) : ExecStep i s { s with rxifg := false, lastError := .bufOvf }
  /-- TXISR with a byte to send (R207). -/
  | txisrSend {b : Byte} {g : Fifo} (hi : i = .evTxisr) (hready : s.txifg = true)
      (hpop : s.tx.tryPop (s.params.size .tx) = .ok (some b, g)) :
      ExecStep i s { s with tx := g, txbuf := some b, wireOut := s.wireOut ++ [b], txifg := false }
  /-- TXISR on an empty FIFO (R207). -/
  | txisrOff (hi : i = .evTxisr) : ExecStep i s { s with txie := false }

/-! ## Every answer is one of the cases -/

theorem State.setFifo_fifo_self (s : State) (sel : Sel) : s.setFifo sel (s.fifo sel) = s := by cases sel <;> rfl

theorem State.advance_setFifo_eq (s : State) (sel : Sel) (g : Fifo) :
    (s.setFifo sel g).advance = { s.setFifo sel g with mres := s.mres, mpc := s.mpc + 1 } := by cases sel <;> rfl

theorem State.ringDone_eq (s : State) (sel : Sel) (g : Fifo) (w : Word) :
    s.ringDone sel g w = { s.setFifo sel g with mres := s.mres ++ [w], mpc := s.mpc + 1 } := by cases sel <;> rfl

/-- A command that returns a word and writes no FIFO is the `ring` case with its FIFO kept. -/
theorem State.advance_result_eq (s : State) (sel : Sel) (w : Word) :
    (s.result w).advance = { s.setFifo sel (s.fifo sel) with mres := s.mres ++ [w], mpc := s.mpc + 1 } := by
  rw [State.setFifo_fifo_self]
  rfl

/-- The five exits and entries write `gie`, the stack and `mpc`. -/
theorem ExecStep.of_exitSection {i c : Instr} {s t : State} {policy : Bool → Bool} (hrun : runsCommand i s c)
    (hformat : c.format = .a) (h : exitSection policy s = .next t) : ExecStep i s t := by
  obtain ⟨captured, rest, -, rfl⟩ := exitSection_next h
  exact .atom hrun hformat

/-- One command that answers, by the inversion lemma of its own. -/
theorem runCommand_next {i c : Instr} {s t : State} (hrun : runsCommand i s c) (h : runCommand c s = .next t) :
    ExecStep i s t := by
  cases c with
  | fReset sel =>
    obtain ⟨-, rfl⟩ := fReset_next h
    rw [State.advance_setFifo_eq]
    exact .ring hrun nofun nofun .reset
  | fTrypush sel b =>
    obtain ⟨-, ok, g, hg, rfl⟩ := fTrypush_next h
    rw [State.ringDone_eq]
    exact .ring hrun nofun nofun (.push hg)
  | fTrypop sel =>
    obtain ⟨-, r, g, hg, rfl⟩ := fTrypop_next h
    rw [State.ringDone_eq]
    exact .ring hrun nofun nofun (.pop hg)
  | fPeek sel =>
    obtain ⟨r, -, rfl⟩ := fPeek_next h
    rw [State.advance_result_eq s sel]
    exact .ring hrun nofun nofun .keep
  | fAvail sel =>
    obtain ⟨k, -, rfl⟩ := fAvail_next h
    rw [State.advance_result_eq s sel]
    exact .ring hrun nofun nofun .keep
  | fFlush sel =>
    obtain ⟨-, g, hg, rfl⟩ := fFlush_next h
    rw [State.advance_setFifo_eq]
    exact .ring hrun nofun nofun (.flush hg)
  | init =>
    obtain ⟨-, -, rfl⟩ := init_next h
    exact .init hrun
  | put b =>
    obtain ⟨hphase, ok, g, hg, ⟨rfl, rfl⟩ | ⟨-, rfl⟩⟩ | ⟨hphase, rfl⟩ := put_next h
    · exact .putQueue hrun hphase hg
    · exact .putWait hrun hphase
    · exact .putKick hrun hphase
  | get =>
    obtain ⟨hphase, r, g, hg, ⟨-, rfl⟩ | ⟨b, rfl, rfl⟩⟩ | ⟨hphase, b, -, rfl⟩ := get_next h
    · rw [State.advance_result_eq s .rx]
      exact .ring hrun nofun (fun _ => hphase) .keep
    · exact .getPop hrun hphase hg
    · exact .getAttach hrun hphase
  | peek =>
    obtain ⟨r, -, rfl⟩ := peek_next h
    rw [State.advance_result_eq s .rx]
    exact .ring hrun nofun nofun .keep
  | avail =>
    obtain ⟨k, -, rfl⟩ := avail_next h
    rw [State.advance_result_eq s .rx]
    exact .ring hrun nofun nofun .keep
  | flush =>
    obtain ⟨g, hg, rfl⟩ := flush_next h
    exact .ring (sel := .rx) hrun nofun nofun (.flush hg)
  | atomEnterAtomic =>
    cases h
    exact .atom hrun rfl
  | atomEnterNonatomic =>
    cases h
    exact .atom hrun rfl
  | atomExitRestore => exact .of_exitSection hrun rfl h
  | atomExitOn => exact .of_exitSection hrun rfl h
  | atomExitOff => exact .of_exitSection hrun rfl h
  | evMstep => cases h
  | evTxready => cases h
  | evRxisr => cases h
  | evTxisr => cases h
  | evRxarrive b fe oe => cases h

/-- A command run directly. -/
theorem exec_command_next {c : Instr} {s t : State} (hc : c.isCommand = true) (h : exec c s = .next t) :
    ExecStep c s t :=
  runCommand_next ⟨hc, .inl rfl⟩ (exec_command hc s ▸ h)

theorem exec_next {i : Instr} {s t : State} (h : exec i s = .next t) : ExecStep i s t := by
  cases hi : i.isEvent with
  | false => exact exec_command_next (by simpa [Instr.isCommand, Instr.isEvent] using hi) h
  | true =>
    cases i with
    | evMstep =>
      obtain ⟨c, hc, hcmd, hlt, hrun⟩ := evMstep_next h
      exact runCommand_next ⟨hcmd, .inr ⟨rfl, hc, hlt⟩⟩ hrun
    | evTxready =>
      obtain ⟨-, rfl⟩ := evTxready_next h
      exact .txready rfl
    | evRxarrive b fe oe =>
      cases h
      exact .rxarrive rfl
    | evRxisr =>
      obtain ⟨-, -, -, b, fe, oe, ok, g, -, -, -, hg, ⟨rfl, rfl⟩ | ⟨-, rfl⟩⟩ := evRxisr_next h
      · exact .rxisrPush rfl hg
      · exact .rxisrDrop rfl
    | evTxisr =>
      obtain ⟨-, -, hready, r, g, hg, ⟨b, rfl, rfl⟩ | ⟨-, rfl⟩⟩ := evTxisr_next h
      · exact .txisrSend rfl hready hg
      · exact .txisrOff rfl
    | _ => simp [Instr.isEvent, Instr.format] at hi

end Sys2Proof.Machine
end

section
/-! Who writes what (10_state.md R36): frames of every step, by the cases of `ExecStep`. -/

namespace Sys2Proof.Machine

/-- No step writes the parameters, the program or the schedule (R20, R74). -/
theorem ExecStep.sameRun {i : Instr} {s t : State} (h : ExecStep i s t) : sameRun s t := by
  cases h <;> simp [Machine.sameRun, State.initialised, putComplete]

/-- `gie` and the section stack are written by format A instructions only (R167). -/
theorem ExecStep.sameSection_or_atom {i : Instr} {s t : State} (h : ExecStep i s t) :
    sameSection s t ∨ ∃ c, runsCommand i s c ∧ c.format = .a := by
  cases h
  case atom c st g hrun hformat => exact .inr ⟨c, hrun, hformat⟩
  all_goals exact .inl (by simp [sameSection, State.initialised, putComplete])

/-- A line error latched is FRAME or OVERRUN (R208); without one `last_error` stays (R209). -/
theorem State.latchLineError_lastError (s : State) (fe oe : Bool) :
    (s.latchLineError fe oe).lastError = s.lastError ∨ (s.latchLineError fe oe).lastError ≠ .noData := by
  cases fe with
  | false =>
    cases oe with
    | false => exact .inl rfl
    | true => exact .inr nofun
  | true =>
    cases oe with
    | false => exact .inr nofun
    | true => exact .inr (by simp only [State.latchLineError]; split <;> exact nofun)

/-- `last_error` is written by RXISR, INIT and GET's second phase only (R25), and none of them writes NO_DATA. -/
theorem ExecStep.lastError_cases {i : Instr} {s t : State} (h : ExecStep i s t) :
    t.lastError = s.lastError ∨
    (i = .evRxisr ∧ t.lastError ≠ .noData) ∨
    (t.lastError = .none ∧ (runsCommand i s .init ∨ (runsCommand i s .get ∧ s.mphase = .one))) := by
  cases h
  case init hrun => exact .inr (.inr ⟨rfl, .inl hrun⟩)
  case getAttach r hrun hphase => exact .inr (.inr ⟨rfl, .inr ⟨hrun, hphase⟩⟩)
  case rxisrPush b fe oe g hi hpush =>
    exact (State.latchLineError_lastError { s with rxifg := false, rx := g } fe oe).imp_right fun hne => .inl ⟨hi, hne⟩
  case rxisrDrop hi => exact .inr (.inl ⟨hi, nofun⟩)
  all_goals exact .inl (by simp [putComplete])

/-- The wire and `txbuf` are written by TXISR only, one byte at a time and with `txifg` set (R207). -/
theorem ExecStep.wire_cases {i : Instr} {s t : State} (h : ExecStep i s t) :
    (t.wireOut = s.wireOut ∧ t.txbuf = s.txbuf) ∨
    (i = .evTxisr ∧ s.txifg = true ∧ t.txifg = false ∧ ∃ b, t.wireOut = s.wireOut ++ [b] ∧ t.txbuf = some b) := by
  cases h
  case txisrSend b g hi hready hpop => exact .inr ⟨hi, hready, rfl, b, rfl, rfl⟩
  all_goals exact .inl (by simp [State.initialised, putComplete])

/-- Settles O11: the fetch takes one word from the schedule, and running it writes none of the three. -/
theorem stepKeepsProgramAndParameters : Obligations.StepKeepsProgramAndParameters := by
  intro s t h
  obtain ⟨w, rest, i, hsched, -, -, hexec⟩ := step_next h
  obtain ⟨hparams, hprog, hrest⟩ := (exec_next hexec).sameRun
  exact ⟨hparams, hprog, w, by rw [hsched, hrest]⟩

/-- Settles O33. -/
theorem gieMovedOnlyByAtomicSections : Obligations.GieMovedOnlyByAtomicSections := by
  intro i s t h hmoved
  obtain hsame | ⟨c, ⟨-, rfl | ⟨rfl, hc, -⟩⟩, hformat⟩ := (exec_next h).sameSection_or_atom
  · exact absurd hsame hmoved
  · exact .inl hformat
  · exact .inr ⟨rfl, c, hc, hformat⟩

/-- Settles O42. -/
theorem lastErrorWriters : Obligations.LastErrorWriters := by
  intro i s t hev h hmoved
  obtain hsame | ⟨rfl, -⟩ | ⟨hnone, hinit | ⟨hget, hphase⟩⟩ := (exec_next h).lastError_cases
  · exact absurd hsame hmoved
  · exact .inl rfl
  · obtain ⟨rfl, hc, -⟩ := hinit.of_isEvent hev
    exact .inr ⟨rfl, hnone, .inl hc⟩
  · obtain ⟨rfl, hc, -⟩ := hget.of_isEvent hev
    exact .inr ⟨rfl, hnone, .inr ⟨hc, hphase⟩⟩

/-- Settles O43. -/
theorem wireGrowsOnlyByTxisr : Obligations.WireGrowsOnlyByTxisr :=
  fun _ _ _ h => (exec_next h).wire_cases

end Sys2Proof.Machine
end

section
/-! Every event keeps the invariant of the reachable states (10_state.md R21 to R35), field by field. -/

namespace Sys2Proof.Machine

/-! ## What a step does to each field of the invariant -/

section Fields

variable {i : Instr} {s t : State}

/-- The receive FIFO makes one move. -/
theorem ExecStep.rxMove (h : ExecStep i s t) : FifoMove (s.params.size .rx) s.rx t.rx := by
  cases h
  case ring c sel g r hrun hput hget hmove =>
    cases sel with
    | rx => exact hmove
    | tx => exact .keep
  case init => exact .reset
  case getPop b g hrun hphase hpop => exact .pop hpop
  case rxisrPush b fe oe g hi hpush => simpa using .push hpush
  case putKick b hrun hphase => simpa [putComplete] using .keep
  all_goals exact .keep

/-- The transmit FIFO makes one move. -/
theorem ExecStep.txMove (h : ExecStep i s t) : FifoMove (s.params.size .tx) s.tx t.tx := by
  cases h
  case ring c sel g r hrun hput hget hmove =>
    cases sel with
    | rx => exact .keep
    | tx => exact hmove
  case init => exact .reset
  case putQueue b g hrun hphase hpush => exact .push hpush
  case txisrSend b g hi hready hpop => exact .pop hpop
  case putKick b hrun hphase => simpa [putComplete] using .keep
  case rxisrPush b fe oe g hi hpush => simpa using .keep
  all_goals exact .keep

/-- `rxie` is set by INIT only, which resets the FIFO (R28). -/
theorem ExecStep.rxie_started (h : ExecStep i s t) (hrxie : t.rxie = true) : s.rxie = true ∨ t.rx.started := by
  cases h
  case init => exact .inr s.rx.started_reset
  all_goals exact .inl (by simpa [putComplete] using hrxie)

/-- `txie` is set by PUT's kick only (R29). -/
theorem ExecStep.txie_kick (h : ExecStep i s t) (htxie : t.txie = true) :
    s.txie = true ∨ (s.mphase = .one ∧ ∃ b, runsCommand i s (.put b)) := by
  cases h
  case init => cases htxie
  case txisrOff => cases htxie
  case putKick b hrun hphase => exact .inr ⟨hphase, b, hrun⟩
  all_goals exact .inl (by simpa using htxie)

/-- `rxifg` is set by RXARRIVE only, which fills the receive register (R26, R28). -/
theorem ExecStep.rxifg_full (h : ExecStep i s t) (hrxifg : t.rxifg = true) :
    (s.rxifg = true ∧ t.rxbuf = s.rxbuf ∧ t.rxfe = s.rxfe ∧ t.rxoe = s.rxoe) ∨
    (t.rxbuf.isSome = true ∧ t.rxfe.isSome = true ∧ t.rxoe.isSome = true) := by
  cases h
  case rxarrive => exact .inr ⟨rfl, rfl, rfl⟩
  case rxisrPush => simp at hrxifg
  case rxisrDrop => cases hrxifg
  all_goals exact .inl (by simpa [putComplete, State.initialised] using hrxifg)

/-- An event leaves `mpc` or completes the command there (R35, R140). -/
theorem ExecStep.mpc_cases (h : ExecStep i s t) (hev : i.isEvent = true) :
    t.mpc = s.mpc ∨ (t.mpc = s.mpc + 1 ∧ s.mpc < s.prog.length) := by
  cases h
  case ring hrun hput hget hmove => exact .inr ⟨rfl, (hrun.of_isEvent hev).2.2⟩
  case init hrun => exact .inr ⟨rfl, (hrun.of_isEvent hev).2.2⟩
  case putKick hrun hphase => exact .inr ⟨by simp [putComplete], (hrun.of_isEvent hev).2.2⟩
  case getAttach hrun hphase => exact .inr ⟨rfl, (hrun.of_isEvent hev).2.2⟩
  case atom hrun hformat => exact .inr ⟨rfl, (hrun.of_isEvent hev).2.2⟩
  all_goals exact .inl (by simp)

theorem State.command_congr (hprog : t.prog = s.prog) (hmpc : t.mpc = s.mpc) : t.command = s.command := by
  simp only [State.command, hprog, hmpc]

/-- While a command other than PUT and GET stands at `mpc`, the phase is 0 (R33). -/
theorem State.Inv.mphase_eq_zero {c : Instr} (hinv : s.Inv) (hc : s.command = some c) (hput : ∀ b, c ≠ .put b)
    (hget : c = .get → s.mphase = .zero) : s.mphase = .zero := by
  cases hphase : s.mphase with
  | zero => rfl
  | one =>
    obtain ⟨hg, -⟩ | ⟨⟨b, hb⟩, -⟩ := hinv.phaseOne hphase
    · rw [← hphase]
      exact hget (Option.some.inj (hc.symm.trans hg))
    · exact absurd (Option.some.inj (hc.symm.trans hb)) (hput b)

/-- After an event the phase is 1 within the PUT or GET that entered it, or was in it already. -/
theorem ExecStep.phaseOne (h : ExecStep i s t) (hev : i.isEvent = true) (hinv : s.Inv) (hphase : t.mphase = .one) :
    (t.command = some .get ∧ t.mtmp.isSome = true) ∨ ((∃ b, t.command = some (.put b)) ∧ t.tx.started) := by
  have hstarted := h.txMove.started
  cases h
  case ring c sel g r hrun hput hget hmove =>
    have := hinv.mphase_eq_zero (hrun.of_isEvent hev).2.1 hput hget
    simp [this] at hphase
  case init hrun =>
    have := hinv.mphase_eq_zero (hrun.of_isEvent hev).2.1 nofun nofun
    simp [State.initialised, this] at hphase
  case atom c st g hrun hformat =>
    have := hinv.mphase_eq_zero (hrun.of_isEvent hev).2.1 (by rintro b rfl; cases hformat) (by rintro rfl; cases hformat)
    simp [this] at hphase
  case putQueue b g hrun hph hpush =>
    exact .inr ⟨⟨b, (hrun.of_isEvent hev).2.1⟩, Fifo.started_of_tryPush hpush⟩
  case getPop b g hrun hph hpop => exact .inl ⟨(hrun.of_isEvent hev).2.1, rfl⟩
  case putKick => cases hphase
  case getAttach => cases hphase
  all_goals
    have := hinv.phaseOne (by simpa using hphase)
    rw [State.command_congr (s := s) (by simp) (by simp)]
    simpa using this.imp_right (And.imp_right hstarted)

end Fields

/-- An event keeps the invariant. -/
theorem ExecStep.inv {i : Instr} {s t : State} (h : ExecStep i s t) (hev : i.isEvent = true) (hinv : s.Inv) : t.Inv where
  rxValid := by
    rw [h.sameRun.1]
    exact h.rxMove.valid (isFifoSize_size _ _) hinv.rxValid
  txValid := by
    rw [h.sameRun.1]
    exact h.txMove.valid (isFifoSize_size _ _) hinv.txValid
  rxieStarted hrxie := (h.rxie_started hrxie).elim (fun h' => h.rxMove.started (hinv.rxieStarted h')) id
  txieStarted htxie := by
    obtain h' | ⟨hphase, b, hrun⟩ := h.txie_kick htxie
    · exact h.txMove.started (hinv.txieStarted h')
    · obtain ⟨hget, -⟩ | ⟨-, hstarted⟩ := hinv.phaseOne hphase
      · simp [(hrun.of_isEvent hev).2.1] at hget
      · exact h.txMove.started hstarted
  rxifgFull hrxifg := by
    obtain ⟨hset, hbuf, hfe, hoe⟩ | hfull := h.rxifg_full hrxifg
    · rw [hbuf, hfe, hoe]
      exact hinv.rxifgFull hset
    · exact hfull
  latched := by
    obtain hsame | ⟨-, hne⟩ | ⟨hnone, -⟩ := h.lastError_cases
    · exact hsame ▸ hinv.latched
    · exact hne
    · simp [hnone]
  mpcLe := by
    have := hinv.mpcLe
    obtain hmpc | ⟨hmpc, hlt⟩ := h.mpc_cases hev <;> rw [hmpc, h.sameRun.2.1] <;> omega
  phaseOne := h.phaseOne hev hinv

/-- The fetch takes a word from the schedule, of which the invariant says nothing. -/
theorem State.Inv.takeSched {s : State} (hinv : s.Inv) (rest : List Word) : State.Inv { s with sched := rest } :=
  { hinv with }

/-- Settles O49. -/
theorem stepKeepsInvariant : Obligations.StepKeepsInvariant := by
  intro s t hinv h
  obtain ⟨w, rest, i, -, -, hev, hexec⟩ := step_next h
  exact (exec_next hexec).inv hev (hinv.takeSched rest)

end Sys2Proof.Machine
end

section
/-! Once both FIFOs have been reset nothing that a step reads is without a value (10_state.md R23, 41_transport_api.md R148). -/

namespace Sys2Proof.Machine

@[simp] theorem noFault_next (t : State) : noFault (.next t) := nofun

@[simp] theorem noFault_refused (r : Refusal) : noFault (.refused r) := nofun

/-- A refusal is no fault, so a guarded operation faults only where its guard holds. -/
theorem noFault_guarded {p : Prop} [Decidable p] {o : Host.Outcome State Fault Refusal} (r : Refusal) (h : noFault o) :
    noFault (if p then o else .refused r) := by
  split
  · exact h
  · exact noFault_refused r

/-- Case 1 of R120. -/
@[simp] theorem State.admits_peek (s : State) (sel : Sel) : s.admits .peek sel = true := rfl

/-- Case 1 of R120. -/
@[simp] theorem State.admits_avail (s : State) (sel : Sel) : s.admits .avail sel = true := rfl

theorem exitSection_noFault (policy : Bool → Bool) (s : State) : noFault (exitSection policy s) := by
  unfold exitSection
  split <;> simp

section Started

variable {s : State} (hinv : s.Inv) (hrx : s.rx.started) (htx : s.tx.started)

include hinv in
theorem State.Inv.fifoValid (sel : Sel) : (s.fifo sel).Valid (s.params.size sel) := by
  cases sel with
  | rx => exact hinv.rxValid
  | tx => exact hinv.txValid

include hrx htx in
theorem State.fifo_started (sel : Sel) : (s.fifo sel).started := by
  cases sel with
  | rx => exact hrx
  | tx => exact htx

include htx in
theorem execPut_noFault (b : Byte) : noFault (execPut b s) := by
  cases hphase : s.mphase with
  | zero =>
    obtain ⟨ok, g, h⟩ := htx.tryPush_ok (n := s.params.size .tx) b
    cases ok <;> simp [execPut, hphase, putAttempt, h, finish]
  | one => simp [execPut, hphase]

include hinv hrx in
/-- In phase 1 the invariant gives `mtmp` its byte (R33). -/
theorem execGet_noFault (hc : s.command = some .get) : noFault (execGet s) := by
  cases hphase : s.mphase with
  | zero =>
    obtain ⟨r, g, h⟩ := hinv.rxValid.tryPop_ok (isFifoSize_size _ _) hrx
    cases r <;> simp [execGet, hphase, getPop, h, finish]
  | one =>
    obtain ⟨-, htmp⟩ | ⟨⟨b, hput⟩, -⟩ := hinv.phaseOne hphase
    · obtain ⟨b, hb⟩ := Option.isSome_iff_exists.1 htmp
      simp [execGet, hphase, getAttach, hb, finish]
    · simp [hc] at hput

include hinv hrx htx in
theorem runCommand_noFault {c : Instr} (hc : s.command = some c) : noFault (runCommand c s) := by
  have hstarted := State.fifo_started hrx htx
  have hvalid := hinv.fifoValid
  cases c with
  | fReset sel => exact noFault_guarded _ (noFault_next _)
  | fTrypush sel b =>
    obtain ⟨ok, g, h⟩ := (hstarted sel).tryPush_ok (n := s.params.size sel) b
    exact noFault_guarded _ (by simp [h])
  | fTrypop sel =>
    obtain ⟨r, g, h⟩ := (hvalid sel).tryPop_ok (isFifoSize_size _ _) (hstarted sel)
    exact noFault_guarded _ (by simp [h])
  | fPeek sel =>
    obtain ⟨r, h⟩ := (hvalid sel).peek_ok (isFifoSize_size _ _) (hstarted sel)
    simp [runCommand, execFPeek, h]
  | fAvail sel =>
    obtain ⟨k, h⟩ := (hstarted sel).available_ok (n := s.params.size sel)
    simp [runCommand, execFAvail, h]
  | fFlush sel =>
    obtain ⟨g, h⟩ := (hstarted sel).flush_ok
    exact noFault_guarded _ (by simp [h])
  | init => exact noFault_guarded _ (noFault_guarded _ (noFault_next _))
  | put b => exact execPut_noFault htx b
  | get => exact execGet_noFault hinv hrx hc
  | peek =>
    obtain ⟨r, h⟩ := hinv.rxValid.peek_ok (isFifoSize_size _ _) hrx
    simp [runCommand, execPeek, h]
  | avail =>
    obtain ⟨k, h⟩ := hrx.available_ok (n := s.params.size .rx)
    simp [runCommand, execAvail, h]
  | flush =>
    obtain ⟨g, h⟩ := hrx.flush_ok
    simp [runCommand, execFlush, h]
  | atomEnterAtomic => exact noFault_next _
  | atomEnterNonatomic => exact noFault_next _
  | atomExitRestore => exact exitSection_noFault _ s
  | atomExitOn => exact exitSection_noFault _ s
  | atomExitOff => exact exitSection_noFault _ s
  | evMstep => exact noFault_refused _
  | evTxready => exact noFault_refused _
  | evRxisr => exact noFault_refused _
  | evTxisr => exact noFault_refused _
  | evRxarrive b fe oe => exact noFault_refused _

include hinv hrx in
/-- RXISR runs only with `rxifg` set, and then the receive register is full (R28). -/
theorem evRxisr_noFault : noFault (exec .evRxisr s) := by
  simp only [exec, execEvRxisr]
  split
  · rename_i henabled
    simp only [State.rxisrEnabled, Bool.and_eq_true] at henabled
    obtain ⟨hbuf, hfe, hoe⟩ := hinv.rxifgFull henabled.2
    obtain ⟨b, hb⟩ := Option.isSome_iff_exists.1 hbuf
    obtain ⟨fe, hfe⟩ := Option.isSome_iff_exists.1 hfe
    obtain ⟨oe, hoe⟩ := Option.isSome_iff_exists.1 hoe
    obtain ⟨ok, g, h⟩ := hrx.tryPush_ok (n := s.params.size .rx) b
    cases ok <;> simp [takeInterrupt, rxHandler, hb, hfe, hoe, h]
  · exact noFault_refused _

include hinv htx in
theorem evTxisr_noFault : noFault (exec .evTxisr s) := by
  obtain ⟨r, g, h⟩ := hinv.txValid.tryPop_ok (isFifoSize_size _ _) htx
  refine noFault_guarded _ ?_
  cases r <;> simp [takeInterrupt, txHandler, h]

include hinv hrx htx in
theorem exec_event_noFault {i : Instr} (hev : i.isEvent = true) : noFault (exec i s) := by
  cases i with
  | evMstep =>
    simp only [exec, execEvMstep]
    split
    · rename_i c hc
      exact runCommand_noFault hinv hrx htx (fetchCommand_ok hc).1
    · exact noFault_refused _
  | evTxready => exact noFault_guarded _ (noFault_next _)
  | evRxisr => exact evRxisr_noFault hinv hrx
  | evTxisr => exact evTxisr_noFault hinv htx
  | evRxarrive b fe oe => exact noFault_next _
  | _ => simp [Instr.isEvent, Instr.format] at hev

end Started

/-- Settles O50: an event reads only what holds a value, and every move of a FIFO keeps its indices defined. -/
theorem noFaultOnceFifosReset : Obligations.NoFaultOnceFifosReset := by
  intro s hinv hrx htx
  refine ⟨?_, fun t h => ?_⟩
  · unfold step
    split
    · rename_i i u hu
      obtain ⟨w, rest, -, -, hev, rfl⟩ := fetchEvent_ok hu
      exact exec_event_noFault (hinv.takeSched rest) hrx htx hev
    · exact noFault_refused _
  · obtain ⟨w, rest, i, -, -, -, hexec⟩ := step_next h
    exact ⟨(exec_next hexec).rxMove.started hrx, (exec_next hexec).txMove.started htx⟩

end Sys2Proof.Machine
end

section
/-! Reset (10_state.md R38), and the reads that find no value (R23). -/

namespace Sys2Proof.Machine

/-! ## After power-on -/

theorem Fifo.valid_noValue (n : Nat) : Fifo.noValue.Valid n where
  canonical := List.Pairwise.nil
  inRange := nofun
  together := rfl
  headLt := nofun
  tailLt := nofun
  live := nofun

/-- No index has a value and no source is enabled, so the invariant asks nothing more of power-on. -/
theorem State.powerOn_inv (p : Params) (b : Bool) : (State.powerOn p b).Inv where
  rxValid := Fifo.valid_noValue _
  txValid := Fifo.valid_noValue _
  rxieStarted := nofun
  txieStarted := nofun
  rxifgFull := nofun
  latched := nofun
  mpcLe := Nat.le_refl 0
  phaseOne := nofun

/-- R212 at power-on: the TX FIFO holds nothing. -/
theorem State.powerOn_kickInv (p : Params) (b : Bool) : (State.powerOn p b).kickInv := fun _ => .inl rfl

/-- Settles O48: `State.reset` is a power-on state. -/
theorem resetMeetsInvariants : Obligations.ResetMeetsInvariants := fun p b =>
  ⟨State.powerOn_inv p b, State.powerOn_kickInv p b, State.powerOn_inv _ _, State.powerOn_kickInv _ _⟩

theorem State.exists_powerOn_of_mem {p : Params} {b : Bool} {s : State} (h : s ∈ [State.powerOn p b, State.reset]) :
    ∃ q x, s = State.powerOn q x := by
  obtain rfl | rfl : s = State.powerOn p b ∨ s = State.reset := by simpa using h
  · exact ⟨p, b, rfl⟩
  · exact ⟨Config.resetParams, Config.txifgAtReset, rfl⟩

/-- Settles O12: the fields of `State.powerOn`. -/
theorem resetValues : Obligations.ResetValues := by
  intro p b s hs
  obtain ⟨q, x, rfl⟩ := State.exists_powerOn_of_mem hs
  simp [State.powerOn, Fifo.noValue, Memory.read]

/-! ## Where the FIFO functions read no value -/

section NoValue

variable {n : Nat} {f : Fifo}

theorem Fifo.tryPush_of_index_none (h : f.head = none ∨ f.tail = none) (b : Byte) :
    f.tryPush n b = .error .uninitialisedRead := by
  unfold Fifo.tryPush
  split
  · simp_all
  · rfl

theorem Fifo.tryPop_of_index_none (h : f.head = none ∨ f.tail = none) : f.tryPop n = .error .uninitialisedRead := by
  unfold Fifo.tryPop
  split
  · simp_all
  · rfl

theorem Fifo.tryPop_of_slot_none {hd tl : Nat} (hh : f.head = some hd) (ht : f.tail = some tl) (hne : hd ≠ tl)
    (hslot : f.buf.read (nextIndex n tl) = none) : f.tryPop n = .error .uninitialisedRead := by
  simp only [Fifo.tryPop, hh, ht, hne, hslot, if_false]

/-- A peek reads what a pop reads. -/
theorem Fifo.peek_of_tryPop_error {e : Fault} (h : f.tryPop n = .error e) : f.peek n = .error e := by
  rw [Fifo.peek_eq_tryPop, h]
  rfl

theorem Fifo.available_of_index_none (h : f.head = none ∨ f.tail = none) :
    f.available n = .error .uninitialisedRead := by
  unfold Fifo.available
  split
  · simp_all
  · rfl

theorem Fifo.flush_of_head_none (h : f.head = none) : f.flush = .error .uninitialisedRead := by
  simp only [Fifo.flush, h]

end NoValue

/-! ## The faults of the instructions -/

section Faults

variable {s : State} {sel : Sel} {e : Fault}

/-- Case 3 of R120. -/
theorem State.admits_of_gie (hgie : s.gie = false) (op : RingOp) (sel : Sel) : s.admits op sel = true := by
  simp [State.admits, hgie]

theorem exec_fTrypop_fault (hgie : s.gie = false) (h : (s.fifo sel).tryPop (s.params.size sel) = .error e) :
    exec (.fTrypop sel) s = .fault e := by
  simp [exec, execFTrypop, State.admits_of_gie hgie, h]

theorem exec_fPeek_fault (h : (s.fifo sel).tryPop (s.params.size sel) = .error e) :
    exec (.fPeek sel) s = .fault e := by
  simp [exec, execFPeek, Fifo.peek_of_tryPop_error h]

theorem exec_peek_fault (h : s.rx.tryPop (s.params.size .rx) = .error e) : exec .peek s = .fault e := by
  simp [exec, execPeek, Fifo.peek_of_tryPop_error h]

theorem exec_get_fault (hphase : s.mphase = .zero) (h : s.rx.tryPop (s.params.size .rx) = .error e) :
    exec .get s = .fault e := by
  simp [exec, execGet, hphase, getPop, h, finish]

theorem exec_evTxisr_fault (henabled : s.txisrEnabled = true) (h : s.tx.tryPop (s.params.size .tx) = .error e) :
    exec .evTxisr s = .fault e := by
  simp [exec, execEvTxisr, henabled, takeInterrupt, txHandler, h]

/-- The format F instructions that read both indices. -/
theorem exec_ring_fault_of_index_none {b : Byte} {i : Instr} (hgie : s.gie = false)
    (hnone : (s.fifo sel).head = none ∨ (s.fifo sel).tail = none)
    (hi : i ∈ [Instr.fTrypush sel b, .fTrypop sel, .fPeek sel, .fAvail sel]) :
    exec i s = .fault .uninitialisedRead := by
  simp only [List.mem_cons, List.not_mem_nil, or_false] at hi
  obtain rfl | rfl | rfl | rfl := hi
  · simp [exec, execFTrypush, State.admits_of_gie hgie, Fifo.tryPush_of_index_none hnone]
  · exact exec_fTrypop_fault hgie (Fifo.tryPop_of_index_none hnone)
  · exact exec_fPeek_fault (Fifo.tryPop_of_index_none hnone)
  · simp [exec, execFAvail, Fifo.available_of_index_none hnone]

/-- The transport's commands that read both indices of RX. -/
theorem exec_transport_fault_of_index_none {i : Instr} (hphase : s.mphase = .zero)
    (hnone : s.rx.head = none ∨ s.rx.tail = none) (hi : i ∈ [Instr.get, .peek, .avail]) :
    exec i s = .fault .uninitialisedRead := by
  simp only [List.mem_cons, List.not_mem_nil, or_false] at hi
  obtain rfl | rfl | rfl := hi
  · exact exec_get_fault hphase (Fifo.tryPop_of_index_none hnone)
  · exact exec_peek_fault (Fifo.tryPop_of_index_none hnone)
  · simp [exec, execAvail, Fifo.available_of_index_none hnone]

/-- RXISR reads the three receive registers, then both indices of RX. -/
theorem exec_evRxisr_fault (henabled : s.rxisrEnabled = true)
    (hnone : s.rxbuf = none ∨ s.rxfe = none ∨ s.rxoe = none ∨ s.rx.head = none ∨ s.rx.tail = none) :
    exec .evRxisr s = .fault .uninitialisedRead := by
  have hbody : rxHandler { s with gie := false } = .error .uninitialisedRead := by
    unfold rxHandler
    split
    · rename_i hbuf hfe hoe
      have hindex : s.rx.head = none ∨ s.rx.tail = none := by simp_all
      simp only [Fifo.tryPush_of_index_none hindex]
    · rfl
  simp [exec, execEvRxisr, henabled, takeInterrupt, hbody]

end Faults

/-- Settles O13: the fields after power-on, then each reader by its fault. -/
theorem readOfNoValueFaults : Obligations.ReadOfNoValueFaults := by
  refine ⟨fun p x s hs => ?_, fun sel b s => ⟨?_, ?_, ?_, ?_, ?_, ?_, exec_evRxisr_fault, ?_⟩⟩
  · obtain rfl := List.mem_singleton.1 hs
    simp [State.powerOn, Fifo.noValue, Memory.read]
  · exact fun i hi hnone hgie => exec_ring_fault_of_index_none hgie hnone hi
  · intro hnone hgie
    simp [exec, execFFlush, State.admits_of_gie hgie, Fifo.flush_of_head_none hnone]
  · exact fun i hi hnone hphase => exec_transport_fault_of_index_none hphase hnone hi
  · intro hnone
    simp [exec, execFlush, Fifo.flush_of_head_none hnone]
  · intro hnone hphase
    simp [exec, execPut, hphase, putAttempt, Fifo.tryPush_of_index_none hnone, finish]
  · intro hd tl hh ht hne hslot
    have hpop := Fifo.tryPop_of_slot_none hh ht hne hslot
    refine ⟨exec_fPeek_fault hpop, fun hgie => exec_fTrypop_fault hgie hpop, ?_, ?_⟩
    · rintro rfl
      exact ⟨exec_peek_fault hpop, fun hphase => exec_get_fault hphase hpop⟩
    · rintro rfl henabled
      exact exec_evTxisr_fault henabled hpop
  · exact fun henabled hnone => exec_evTxisr_fault henabled (Fifo.tryPop_of_index_none hnone)

end Sys2Proof.Machine
end

section
/-! What the FIFO instructions and the transport's commands leave unchanged (10_state.md R36). -/

namespace Sys2Proof.Machine

/-! ## Frames of the FIFO functions -/

section FifoFrames

variable {n : Nat} {f g : Fifo}

/-- A push writes `head` and the slot after it (R122). -/
theorem Fifo.tryPush_frame {b : Byte} {ok : Bool} (h : f.tryPush n b = .ok (ok, g)) :
    g.tail = f.tail ∧ ∀ hd, f.head = some hd → ∀ a, a ≠ nextIndex n hd → g.buf.read a = f.buf.read a := by
  obtain ⟨hd, tl, hh, ht, ⟨-, -, rfl⟩ | ⟨-, -, rfl⟩⟩ := Fifo.tryPush_cases h
  · exact ⟨rfl, fun _ _ _ _ => rfl⟩
  · refine ⟨rfl, fun hd' hh' a ha => ?_⟩
    obtain rfl : hd = hd' := Option.some.inj (hh.symm.trans hh')
    exact Memory.read_write_other _ _ ha

/-- A pop writes `tail` only (R123). -/
theorem Fifo.tryPop_frame {r : Option Byte} (h : f.tryPop n = .ok (r, g)) : g.buf = f.buf ∧ g.head = f.head := by
  obtain ⟨hd, tl, -, -, ⟨-, -, rfl⟩ | ⟨-, b, -, -, rfl⟩⟩ := Fifo.tryPop_cases h <;> exact ⟨rfl, rfl⟩

/-- A flush writes `tail` only (R126). -/
theorem Fifo.flush_frame (h : f.flush = .ok g) : g.buf = f.buf ∧ g.head = f.head := by
  obtain ⟨hd, -, rfl⟩ := Fifo.flush_cases h
  exact ⟨rfl, rfl⟩

end FifoFrames

/-! ## The FIFO instructions -/

/-- What FIFO instruction `i` on `sel` may write of its FIFO, from `f` to `g`, and of the results, from `old` to `new`. -/
structure RingFrame (n : Nat) (sel : Sel) (b : Byte) (i : Instr) (f g : Fifo) (old new : List Word) : Prop where
  storage : i ≠ .fTrypush sel b → g.buf = f.buf
  stored : i = .fTrypush sel b → ∀ hd, f.head = some hd → ∀ a, a ≠ nextIndex n hd → g.buf.read a = f.buf.read a
  head : i ∈ [.fTrypop sel, .fPeek sel, .fAvail sel, .fFlush sel] → g.head = f.head
  tail : i ∈ [.fTrypush sel b, .fPeek sel, .fAvail sel] → g.tail = f.tail
  results : i ∈ [.fReset sel, .fFlush sel] → new = old

/-- A FIFO instruction that answers writes its own FIFO, the results and `mpc`. -/
theorem ring_next {sel : Sel} {b : Byte} {i : Instr} {s t : State}
    (hi : i ∈ [.fReset sel, .fTrypush sel b, .fTrypop sel, .fPeek sel, .fAvail sel, .fFlush sel])
    (h : exec i s = .next t) :
    ∃ g r, t = { s.setFifo sel g with mres := r, mpc := s.mpc + 1 } ∧
      RingFrame (s.params.size sel) sel b i (s.fifo sel) g s.mres r := by
  simp only [List.mem_cons, List.not_mem_nil, or_false] at hi
  obtain rfl | rfl | rfl | rfl | rfl | rfl := hi
  · obtain ⟨-, rfl⟩ := fReset_next h
    exact ⟨_, _, State.advance_setFifo_eq s sel _, by constructor <;> simp [Fifo.reset]⟩
  · obtain ⟨-, ok, g, hg, rfl⟩ := fTrypush_next h
    obtain ⟨htail, hbuf⟩ := Fifo.tryPush_frame hg
    exact ⟨_, _, State.ringDone_eq s sel _ _, ⟨nofun, fun _ => hbuf, by simp, fun _ => htail, by simp⟩⟩
  · obtain ⟨-, r, g, hg, rfl⟩ := fTrypop_next h
    obtain ⟨hbuf, hhead⟩ := Fifo.tryPop_frame hg
    exact ⟨_, _, State.ringDone_eq s sel _ _, by constructor <;> simp [hbuf, hhead]⟩
  · obtain ⟨r, -, rfl⟩ := fPeek_next h
    exact ⟨_, _, State.advance_result_eq s sel _, by constructor <;> simp⟩
  · obtain ⟨k, -, rfl⟩ := fAvail_next h
    exact ⟨_, _, State.advance_result_eq s sel _, by constructor <;> simp⟩
  · obtain ⟨-, g, hg, rfl⟩ := fFlush_next h
    obtain ⟨hbuf, hhead⟩ := Fifo.flush_frame hg
    exact ⟨_, _, State.advance_setFifo_eq s sel _, by constructor <;> simp [hbuf, hhead]⟩

theorem State.fifo_otherFifo_setFifo (s : State) (sel : Sel) (g : Fifo) :
    (s.setFifo sel g).fifo (otherFifo sel) = s.fifo (otherFifo sel) := by cases sel <;> rfl

/-- `mres` and `mpc` are no part of a FIFO. -/
theorem State.fifo_with_mres_mpc (s : State) (r : List Word) (m : Nat) (sel : Sel) :
    State.fifo { s with mres := r, mpc := m } sel = s.fifo sel := by cases sel <;> rfl

/-- Settles O21. -/
theorem fifoInstructionsFrame : Obligations.FifoInstructionsFrame := by
  intro sel b i s t hi h
  obtain ⟨g, r, rfl, hframe⟩ := ring_next hi h
  simp only [sameStorage, sameStorageBut, State.fifo_with_mres_mpc, State.fifo_setFifo,
    State.fifo_otherFifo_setFifo, true_and]
  refine ⟨?_, ?_, ?_, ?_, ?_, ?_, ?_, ?_, fun hne a => by rw [hframe.storage hne], hframe.stored,
    hframe.head, hframe.tail, hframe.results⟩
  all_goals simp [sameUart, sameSection, sameRun]

/-! ## The transport's commands -/

/-- PUT where it answers: the attempt moves the TX FIFO as a push does, and the kick leaves it. -/
theorem put_frame {b : Byte} {s t : State} (h : exec (.put b) s = .next t) :
    (s.mphase = .zero ∧ ∃ g ok p, s.tx.tryPush (s.params.size .tx) b = .ok (ok, g) ∧
      t = { s with tx := g, mphase := p }) ∨
    (s.mphase = .one ∧ t = putComplete b s) := by
  obtain ⟨hphase, ok, g, hg, ⟨-, rfl⟩ | ⟨rfl, rfl⟩⟩ | hkick := put_next h
  · exact .inl ⟨hphase, g, ok, .one, hg, rfl⟩
  · obtain ⟨-, -, -, -, ⟨-, -, rfl⟩ | ⟨-, hok, -⟩⟩ := Fifo.tryPush_cases hg
    · exact .inl ⟨hphase, _, _, t.mphase, hg, rfl⟩
    · cases hok
  · exact .inr hkick

/-- The commands that work on RX write its `tail` and the main agent's registers; only GET writes more than results. -/
theorem rxCommand_next {i : Instr} {s t : State} (hi : i ∈ [Instr.get, .peek, .avail, .flush])
    (h : exec i s = .next t) :
    ∃ g e r m p x, t = { s with rx := g, lastError := e, mres := r, mpc := m, mphase := p, mtmp := x } ∧
      g.buf = s.rx.buf ∧ g.head = s.rx.head ∧ (i ≠ .get → e = s.lastError ∧ p = s.mphase ∧ x = s.mtmp) ∧
      (i = .peek ∨ i = .avail → g = s.rx) := by
  simp only [List.mem_cons, List.not_mem_nil, or_false] at hi
  obtain rfl | rfl | rfl | rfl := hi
  · obtain ⟨-, r, g, hg, ⟨-, rfl⟩ | ⟨b, -, rfl⟩⟩ | ⟨-, b, -, rfl⟩ := get_next h
    · exact ⟨_, _, _, _, _, _, rfl, rfl, rfl, nofun, nofun⟩
    · obtain ⟨hbuf, hhead⟩ := Fifo.tryPop_frame hg
      exact ⟨_, _, _, _, _, _, rfl, hbuf, hhead, nofun, nofun⟩
    · exact ⟨_, _, _, _, _, _, rfl, rfl, rfl, nofun, nofun⟩
  · obtain ⟨r, -, rfl⟩ := peek_next h
    exact ⟨_, _, _, _, _, _, rfl, rfl, rfl, fun _ => ⟨rfl, rfl, rfl⟩, fun _ => rfl⟩
  · obtain ⟨k, -, rfl⟩ := avail_next h
    exact ⟨_, _, _, _, _, _, rfl, rfl, rfl, fun _ => ⟨rfl, rfl, rfl⟩, fun _ => rfl⟩
  · obtain ⟨g, hg, rfl⟩ := flush_next h
    obtain ⟨hbuf, hhead⟩ := Fifo.flush_frame hg
    exact ⟨_, _, _, _, _, _, rfl, hbuf, hhead, fun _ => ⟨rfl, rfl, rfl⟩, nofun⟩

/-- Settles O29: PUT by its phase, the commands on RX by what they write, INIT by what it programs. -/
theorem transportCommandsFrame : Obligations.TransportCommandsFrame := by
  refine fun b s t => ⟨fun h => ?_, fun i hi h => ?_, fun h => ?_⟩
  · obtain ⟨hphase, g, ok, p, hg, rfl⟩ | ⟨hphase, rfl⟩ := put_frame h
    · obtain ⟨htail, hbuf⟩ := Fifo.tryPush_frame hg
      simpa [hphase, htail, sameSection, sameRun, sameStorageBut] using hbuf
    · simp [hphase, putComplete, sameSection, sameRun]
  · obtain ⟨g, e, r, m, p, x, rfl, hbuf, hhead, honly, hkept⟩ := rxCommand_next hi h
    refine ⟨rfl, hhead, fun a => congrArg (·.read a) hbuf, ?_, ?_, ?_, rfl, rfl, honly, hkept⟩
    all_goals simp [sameUart, sameSection, sameRun]
  · obtain ⟨-, -, rfl⟩ := init_next h
    simp [State.initialised, Fifo.reset, sameStorage, sameSection, sameRun]

end Sys2Proof.Machine
end

section
/-! The next slot's range and wrap-around (20_memory.md R61), and the slot arithmetic of the ring as a whole. -/

namespace Sys2Proof.Machine

theorem IsFifoSize.nextIndex_lt {n : Nat} (hn : IsFifoSize n) (i : Nat) : nextIndex n i < n := by
  rw [hn.nextIndex_eq]
  exact Nat.mod_lt _ hn.pos

theorem IsFifoSize.nextIndex_last {n : Nat} (hn : IsFifoSize n) : nextIndex n (n - 1) = 0 := by
  rw [hn.nextIndex_eq, Nat.sub_add_cancel hn.pos, Nat.mod_self]

/-- Settles O44: both masks are reductions modulo the size, which is positive; range and wrap follow. -/
theorem slotArithmetic : Obligations.SlotArithmetic := by
  intro e i h t
  have hn := isFifoSize_two_pow e
  exact ⟨hn.nextIndex_eq i, hn.nextIndex_lt i, hn.nextIndex_last, hn.countBetween_eq h t⟩

end Sys2Proof.Machine
end

section
/-! The opcode map (30_encoding.md R95, R96): its rows are disjoint, so the decoder reads a word as the one row the word spells. -/

namespace Sys2Proof

theorem Row.spells_iff {r : Row} {w : Word} : r.spells w = true ↔ w &&& r.mask = r.pat := by
  simp [Row.spells]

/-- Two rows that one word spells have patterns which agree wherever both rows fix a bit. -/
theorem Row.pat_and_mask_comm {r q : Row} {w : Word} (hr : r.spells w = true) (hq : q.spells w = true) :
    r.pat &&& q.mask = q.pat &&& r.mask := by
  rw [← Row.spells_iff.1 hr, ← Row.spells_iff.1 hq, BitVec.and_assoc, BitVec.and_assoc, BitVec.and_comm r.mask]

/-- Rows of different mnemonics disagree in a bit that both fix: a finite check of the map. -/
theorem mnemonic_eq_of_pat_and_mask_comm :
    ∀ r ∈ opcodeMap, ∀ q ∈ opcodeMap, r.pat &&& q.mask = q.pat &&& r.mask → r.mnemonic = q.mnemonic := by
  decide

/-- Settles O5: the two patterns agree wherever both rows fix a bit, which no two different rows do. -/
theorem opcodeRowsAreDisjoint : Obligations.OpcodeRowsAreDisjoint := fun r hr q hq _ hrw hqw =>
  mnemonic_eq_of_pat_and_mask_comm r hr q hq (Row.pat_and_mask_comm hrw hqw)

theorem nodup_mnemonics : (opcodeMap.map Row.mnemonic).Nodup := by decide

theorem Row.eq_of_spells {r q : Row} {w : Word} (hr : r ∈ opcodeMap) (hq : q ∈ opcodeMap)
    (hrw : r.spells w = true) (hqw : q.spells w = true) : r = q :=
  List.inj_on_of_nodup_map nodup_mnemonics hr hq (opcodeRowsAreDisjoint r hr q hq w hrw hqw)

/-- R96: the decoder reads a word as an instruction iff a row of the map spells the word and builds that instruction. -/
theorem decodeWord_eq_some_iff {w : Word} {i : Instr} :
    decodeWord w = some i ↔ ∃ r ∈ opcodeMap, r.spells w = true ∧ r.build w = i := by
  simp only [decodeWord, Option.map_eq_some_iff]
  constructor
  · rintro ⟨r, hfind, hbuild⟩
    exact ⟨r, List.mem_of_find?_eq_some hfind, List.find?_some (p := fun r : Row => r.spells w) hfind, hbuild⟩
  · rintro ⟨r, hr, hrw, hbuild⟩
    obtain ⟨q, hfind⟩ : ∃ q, opcodeMap.find? (fun q => q.spells w) = some q :=
      Option.isSome_iff_exists.1 (List.find?_isSome.2 ⟨r, hr, hrw⟩)
    have hqw : q.spells w = true := List.find?_some (p := fun q : Row => q.spells w) hfind
    obtain rfl := Row.eq_of_spells (List.mem_of_find?_eq_some hfind) hr hqw hrw
    exact ⟨q, hfind, hbuild⟩

/-- R101: a word is reserved iff no row of the map spells it. -/
theorem decodeWord_eq_none_iff {w : Word} : decodeWord w = none ↔ ∀ r ∈ opcodeMap, ¬ r.spells w = true := by
  simp [decodeWord]

end Sys2Proof
end

section
/-! The operand fields (30_encoding.md R91 to R94, R97): what the encoder writes the rows read back, and what a row reads the
encoder writes back. -/

namespace Sys2Proof

/-! ## Fields of a word, written back -/

theorem selBits_selOf (w : Word) : selBits (selOf w) = w &&& 0x0800 := by
  rw [show (0x0800 : Word) = BitVec.twoPow 16 11 from rfl, BitVec.and_twoPow, selOf]
  split <;> rfl

theorem feBits_feOf (w : Word) : feBits (feOf w) = w &&& 0x0100 := (BitVec.and_twoPow w 8).symm

theorem oeBits_oeOf (w : Word) : oeBits (oeOf w) = w &&& 0x0200 := (BitVec.and_twoPow w 9).symm

theorem setWidth_imm8Of (w : Word) : (imm8Of w).setWidth 16 = w &&& 0x00FF := by
  ext k hk
  interval_cases k <;> simp [imm8Of]

/-- What a row builds from a word is encoded as the row's pattern and the bits of the word that the row's mask leaves open: the fields
of the row's operands are those bits. -/
theorem encode_build : ∀ r ∈ opcodeMap, ∀ w : Word, encode (r.build w) = r.pat ||| w &&& ~~~r.mask := by
  simp [opcodeMap, rowsF, rowsE, rowsM, rowsA, encode, selBits_selOf, feBits_feOf, oeBits_oeOf, setWidth_imm8Of,
    BitVec.or_assoc, ← BitVec.and_or_distrib_left]

theorem encode_build_of_spells {r : Row} {w : Word} (hr : r ∈ opcodeMap) (hrw : r.spells w = true) :
    encode (r.build w) = w := by
  calc encode (r.build w) = w &&& r.mask ||| w &&& ~~~r.mask := by rw [encode_build r hr, Row.spells_iff.1 hrw]
    _ = w := by rw [← BitVec.and_or_distrib_left, BitVec.or_not_self, BitVec.and_allOnes]

/-! ## Operands of an instruction, read back -/

@[simp] theorem getElem_selBits (sel : Sel) : (selBits sel)[11] = (sel == .tx) := by cases sel <;> rfl
@[simp] theorem getElem_feBits_fe (fe : Bool) : (feBits fe)[8] = fe := by cases fe <;> rfl
@[simp] theorem getElem_feBits_oe (fe : Bool) : (feBits fe)[9] = false := by cases fe <;> rfl
@[simp] theorem getElem_oeBits_fe (oe : Bool) : (oeBits oe)[8] = false := by cases oe <;> rfl
@[simp] theorem getElem_oeBits_oe (oe : Bool) : (oeBits oe)[9] = oe := by cases oe <;> rfl
@[simp] theorem setWidth_selBits (sel : Sel) : (selBits sel).setWidth 8 = 0 := by cases sel <;> rfl
@[simp] theorem setWidth_feBits (fe : Bool) : (feBits fe).setWidth 8 = 0 := by cases fe <;> rfl
@[simp] theorem setWidth_oeBits (oe : Bool) : (oeBits oe).setWidth 8 = 0 := by cases oe <;> rfl

theorem Sel.ite_eq_tx (sel : Sel) : (if sel = .tx then Sel.tx else .rx) = sel := by cases sel <;> rfl

/-- The row that bears an instruction's mnemonic reads its operands back from its word. -/
theorem build_encode (i : Instr) : ∀ r ∈ opcodeMap, r.mnemonic = i.mnemonic → r.build (encode i) = i := by
  simp only [opcodeMap, rowsF, rowsE, rowsM, rowsA, List.forall_mem_append, List.forall_mem_cons]
  cases i <;> simp [Instr.mnemonic, encode, selOf, imm8Of, feOf, oeOf, BitVec.setWidth_or, Sel.ite_eq_tx]

theorem spellsItsRow (i : Instr) : Laws.SpellsItsRow.Statement i :=
  open Laws.SpellsItsRow in
  match i with
  | .fReset sel => fReset sel
  | .fTrypush sel b => fTrypush sel b
  | .fTrypop sel => fTrypop sel
  | .fPeek sel => fPeek sel
  | .fAvail sel => fAvail sel
  | .fFlush sel => fFlush sel
  | .evMstep => evMstep
  | .evTxready => evTxready
  | .evRxisr => evRxisr
  | .evTxisr => evTxisr
  | .evRxarrive b fe oe => evRxarrive b fe oe
  | .init => init
  | .put b => put b
  | .get => get
  | .peek => peek
  | .avail => avail
  | .flush => flush
  | .atomEnterAtomic => atomEnterAtomic
  | .atomEnterNonatomic => atomEnterNonatomic
  | .atomExitRestore => atomExitRestore
  | .atomExitOn => atomExitOn
  | .atomExitOff => atomExitOff

/-! ## The round trips -/

/-- Settles O1: the word spells the row of its mnemonic, and that row builds the instruction back. -/
theorem decodeOfEncodeIsIdentity : Obligations.DecodeOfEncodeIsIdentity := by
  intro i
  obtain ⟨r, hr, hmnemonic, hspells⟩ := spellsItsRow i
  exact decodeWord_eq_some_iff.2 ⟨r, hr, hspells, build_encode i r hr hmnemonic⟩

/-- Settles O2: the word is its row's pattern and its open bits, and the encoder writes both. -/
theorem encodeOfDecodeIsIdentity : Obligations.EncodeOfDecodeIsIdentity := by
  intro w i h
  obtain ⟨r, hr, hspells, rfl⟩ := decodeWord_eq_some_iff.1 h
  exact encode_build_of_spells hr hspells

/-- Settles O3: each word is what the encoder writes for its instruction. -/
theorem specWordsDecode : Obligations.SpecWordsDecode :=
  have h := decodeOfEncodeIsIdentity
  ⟨h (.fTrypush .tx 0x41), h (.fAvail .tx), h (.evRxarrive 0x65 true false), h (.evRxarrive 0x41 false true),
    h (.put 0x4F), h .get, h .atomEnterNonatomic, h .atomExitOff⟩

end Sys2Proof
end

section
/-! The reserved words (30_encoding.md R101): for each format, what it takes that no row of the format spells a word. -/

namespace Sys2Proof

open Machine

/-- A mask acts on `op` (bits 15:12), on bits 11:8 and on `imm8` (bits 7:0) apart. -/
theorem toNat_and_fields (w m : Word) : (w &&& m).toNat = 4096 * (w.toNat / 4096 &&& m.toNat / 4096) +
    256 * (w.toNat / 256 % 16 &&& m.toNat / 256 % 16) + (w.toNat % 256 &&& m.toNat % 256) := by
  have hop : (w.toNat &&& m.toNat) / 4096 = w.toNat / 4096 &&& m.toNat / 4096 := Nat.and_div_two_pow (n := 12)
  have hhigh : (w.toNat &&& m.toNat) / 256 = w.toNat / 256 &&& m.toNat / 256 := Nat.and_div_two_pow (n := 8)
  have hmid : (w.toNat / 256 &&& m.toNat / 256) % 16 = w.toNat / 256 % 16 &&& m.toNat / 256 % 16 :=
    Nat.and_mod_two_pow (n := 4)
  have himm : (w.toNat &&& m.toNat) % 256 = w.toNat % 256 &&& m.toNat % 256 := Nat.and_mod_two_pow (n := 8)
  rw [BitVec.toNat_and]
  omega

theorem and_seven (n : Nat) : n &&& 7 = n % 8 := Nat.and_two_pow_sub_one_eq_mod n 3
theorem and_fifteen (n : Nat) : n &&& 15 = n % 16 := Nat.and_two_pow_sub_one_eq_mod n 4
theorem and_255 (n : Nat) : n &&& 255 = n % 256 := Nat.and_two_pow_sub_one_eq_mod n 8

theorem mod_sixteen_and_twelve (n : Nat) : n % 16 &&& 12 = n % 16 / 4 * 4 := by
  have hall : ∀ k < 16, k &&& 12 = k / 4 * 4 := by decide
  exact hall _ (Nat.mod_lt n (by decide))

theorem no_rowF_spells_iff (w : Word) : (∀ r ∈ rowsF, ¬ r.spells w = true) ↔
    (1 ≤ w.toNat / 4096 → w.toNat / 4096 ≤ 6 →
      w.toNat / 256 % 16 % 8 ≠ 0 ∨ (w.toNat / 4096 ≠ 2 ∧ w.toNat % 256 ≠ 0)) := by
  have hw := w.isLt
  simp only [rowsF, Row.spells_iff, ← BitVec.toNat_inj, toNat_and_fields]
  simp [and_seven, and_fifteen, and_255]
  omega

theorem no_rowE_spells_iff (w : Word) : (∀ r ∈ rowsE, ¬ r.spells w = true) ↔
    (w.toNat / 4096 = 7 →
      (4 ≤ w.toNat / 256 % 16 ∧ w.toNat / 256 % 16 ≤ 7) ∨ 12 ≤ w.toNat / 256 % 16 ∨
        (w.toNat / 256 % 16 ≤ 3 ∧ w.toNat % 256 ≠ 0)) := by
  have hw := w.isLt
  simp only [rowsE, Row.spells_iff, ← BitVec.toNat_inj, toNat_and_fields]
  simp [and_fifteen, and_255, mod_sixteen_and_twelve]
  omega

theorem no_rowM_spells_iff (w : Word) : (∀ r ∈ rowsM, ¬ r.spells w = true) ↔
    (8 ≤ w.toNat / 4096 → w.toNat / 4096 ≤ 13 →
      w.toNat / 256 % 16 ≠ 0 ∨ (w.toNat / 4096 ≠ 9 ∧ w.toNat % 256 ≠ 0)) := by
  have hw := w.isLt
  simp only [rowsM, Row.spells_iff, ← BitVec.toNat_inj, toNat_and_fields]
  simp [and_fifteen, and_255]
  omega

theorem no_rowA_spells_iff (w : Word) : (∀ r ∈ rowsA, ¬ r.spells w = true) ↔
    (14 ≤ w.toNat / 4096 → w.toNat / 4 % 1024 ≠ 0 ∨ w = 0xE002 ∨ w = 0xE003 ∨ w = 0xF003) := by
  have hw := w.isLt
  simp only [rowsA, Row.spells_iff, ← BitVec.toNat_inj, toNat_and_fields]
  simp [and_fifteen, and_255]
  omega

/-- The formats share out the values of `op` but 0, so a condition for each format is one list of cases, as R101 writes it. -/
theorem forall_formats_iff {op : Nat} {f e m a x : Prop} (hx : x → 14 ≤ op) :
    (((1 ≤ op → op ≤ 6 → f) ∧ (op = 7 → e)) ∧ (8 ≤ op → op ≤ 13 → m)) ∧ (14 ≤ op → a ∨ x) ↔
      op = 0 ∨ (1 ≤ op ∧ op ≤ 6 ∧ f) ∨ (op = 7 ∧ e) ∨ (8 ≤ op ∧ op ≤ 13 ∧ m) ∨ (14 ≤ op ∧ a) ∨ x := by
  grind

theorem decodeWord_eq_none_iff_reservedByRule (w : Word) : decodeWord w = none ↔ reservedByRule w := by
  simp only [decodeWord_eq_none_iff, opcodeMap, List.forall_mem_append, no_rowF_spells_iff, no_rowE_spells_iff,
    no_rowM_spells_iff, no_rowA_spells_iff]
  exact forall_formats_iff (by rintro (rfl | rfl | rfl) <;> decide)

end Sys2Proof
end

section
/-! Words a fetch stops at: reserved or misplaced (30_encoding.md R101, R94, R104), and the end of the schedule
(70_reset_and_hazards.md R251). -/

namespace Sys2Proof.Machine

theorem isEvent_eq_not_isCommand (i : Instr) : i.isEvent = !i.isCommand := by
  simp [Instr.isEvent, Instr.isCommand, bne]

theorem exec_evMstep_of_fetchCommand_error {s : State} {r : Refusal} (h : fetchCommand s = .error r) :
    exec .evMstep s = .refused r := by
  simp only [exec, execEvMstep, h]

theorem step_of_fetchEvent_error {s : State} {r : Refusal} (h : fetchEvent s = .error r) : step s = .refused r := by
  simp only [step, h]

theorem exec_evMstep_of_reserved {s : State} {w : Word} (hw : s.prog[s.mpc]? = some w) (hdec : decodeWord w = none) :
    exec .evMstep s = .refused .reservedEncoding :=
  exec_evMstep_of_fetchCommand_error (by simp only [fetchCommand, hw, hdec])

/-- Settles O4: the rows of each format leave over the words R101 lists for it; the main agent's fetch stops at such a word. -/
theorem reservedWordsAreExactlyR101 : Obligations.ReservedWordsAreExactlyR101 := fun w =>
  ⟨decodeWord_eq_none_iff_reservedByRule w, fun _ hw hreserved =>
    exec_evMstep_of_reserved hw ((decodeWord_eq_none_iff_reservedByRule w).2 hreserved)⟩

/-- Settles O10: each of the five stops the fetch that reaches it, and the step is refused as the fetch was. -/
theorem misplacedWordsAreRefused : Obligations.MisplacedWordsAreRefused := by
  refine fun s w => ⟨exec_evMstep_of_reserved, fun i hw hdec hev => ?_, fun rest i hsched hdec hcmd => ?_,
    fun rest hsched hdec => ?_, fun hsched => ?_⟩
  · have hcmd : i.isCommand = false := by simpa [isEvent_eq_not_isCommand] using hev
    exact exec_evMstep_of_fetchCommand_error (by simp [fetchCommand, hw, hdec, hcmd])
  · have hev : i.isEvent = false := by simpa [isEvent_eq_not_isCommand] using hcmd
    exact step_of_fetchEvent_error (by simp [fetchEvent, hsched, hdec, hev])
  · exact step_of_fetchEvent_error (by simp only [fetchEvent, hsched, hdec])
  · exact step_of_fetchEvent_error (by simp only [fetchEvent, hsched])

end Sys2Proof.Machine
end

section
/-! PUTS (30_encoding.md R105): a list of encoded instructions reads back as it was, and PUTs are a well-formed program. -/

namespace Sys2Proof

theorem decodeAll_map_encode (is : List Instr) : decodeAll (is.map encode) = some is := by
  induction is with
  | nil => rfl
  | cons i is ih => simp only [List.map_cons, decodeAll, decodeOfEncodeIsIdentity i, ih]

theorem progWordsWellFormed_map_encode (is : List Instr) :
    progWordsWellFormed (is.map encode) = programWellFormed is := by
  simp only [progWordsWellFormed, decodeAll_map_encode]

theorem sectionsBalanced_puts (bs : List Byte) : sectionsBalanced 0 (puts bs) = true := by
  induction bs with
  | nil => rfl
  | cons b bs ih => exact ih

theorem programWellFormed_puts (bs : List Byte) : programWellFormed (puts bs) = true := by
  have hcommands : (puts bs).all Instr.isCommand = true := by simp [puts, Instr.isCommand, Instr.format]
  simp [programWellFormed, hcommands, sectionsBalanced_puts]

/-- Settles O6: the encoder writes a PUT as `0x9000 | b`; the words read back as those PUTs, which open and close no section. -/
theorem putsExpandsToPutWords : Obligations.PutsExpandsToPutWords := fun bs =>
  ⟨List.map_map, decodeAll_map_encode (puts bs),
    (progWordsWellFormed_map_encode (puts bs)).trans (programWellFormed_puts bs)⟩

end Sys2Proof
end

section
/-! The fields of a result word (30_encoding.md R98, R99). -/

namespace Sys2Proof.Machine

/-- R98: the code stands right above the byte, and nothing above the code. -/
theorem statusWord_eq_setWidth_append (e : ErrorKind) (b : Byte) : statusWord e b = (e.code ++ b).setWidth 16 :=
  BitVec.setWidth_append_eq_shiftLeft_setWidth_or.symm

theorem extractLsb'_statusWord (e : ErrorKind) (b : Byte) {start len : Nat} (h : start + len ≤ 16) :
    (statusWord e b).extractLsb' start len = (e.code ++ b).extractLsb' start len := by
  rw [statusWord_eq_setWidth_append, BitVec.extractLsb'_setWidth_of_le h]

/-- Settles O25: the fields of the word are those of the code put before the byte. -/
theorem resultWordsPackCodeAndByte : Obligations.ResultWordsPackCodeAndByte := by
  refine ⟨⟨rfl, rfl, rfl, rfl, rfl⟩, fun e b => ⟨?_, ?_, ?_, rfl, ?_⟩⟩
  · rw [extractLsb'_statusWord e b (by decide)]
    ext k hk
    simp
  · rw [extractLsb'_statusWord e b (by decide), BitVec.extractLsb'_append_eq_left]
  · rw [extractLsb'_statusWord e b (by decide), BitVec.extractLsb'_append_eq_right]
  · simp [statusWord, ErrorKind.code, zext16]

end Sys2Proof.Machine
end

section
/-! The laws of the ring (40_ring_buffer.md R127, R128): what a FIFO does over a whole sequence of calls. -/

namespace Sys2Proof.Machine

/-! ## One more call in front of a sequence -/

section Play

variable {n : Nat} {f g last : Fifo} {rest : List QueueCall} {popped pushed : List Byte}

theorem Fifo.play_push_cons {b : Byte} {ok : Bool} (hpush : f.tryPush n b = .ok (ok, g))
    (hrest : g.play n rest = .ok (popped, pushed, last)) :
    f.play n (.push b :: rest) = .ok (popped, if ok then b :: pushed else pushed, last) := by
  simp only [Fifo.play, hpush, hrest]

theorem Fifo.play_pop_cons {r : Option Byte} (hpop : f.tryPop n = .ok (r, g))
    (hrest : g.play n rest = .ok (popped, pushed, last)) :
    f.play n (.pop :: rest) = .ok (r.toList ++ popped, pushed, last) := by
  simp only [Fifo.play, hpop, hrest]

end Play

/-! ## The FIFO law -/

section Law

variable {n : Nat} {f : Fifo} (hn : IsFifoSize n) (hv : f.Valid n) (hs : f.started)

include hn hv hs

/-- No byte is lost, invented or moved past another, whatever calls are made (R127): a push appends to the contents, a pop takes
from their front. -/
theorem Fifo.Valid.play_conserves (calls : List QueueCall) :
    ∃ popped pushed g, f.play n calls = .ok (popped, pushed, g) ∧
      popped ++ g.contents n = f.contents n ++ pushed ∧ g.Valid n ∧ g.started := by
  induction calls generalizing f with
  | nil => exact ⟨[], [], f, rfl, by simp, hv, hs⟩
  | cons call rest ih =>
    cases call with
    | push b =>
      obtain ⟨g, hpush, hcontents, -⟩ | ⟨hpush, -⟩ := hv.tryPush_on_contents hn hs b
      · obtain ⟨popped, pushed, last, hplay, hconserved, hkept⟩ := ih (hv.tryPush hn hpush) (Fifo.started_of_tryPush hpush)
        exact ⟨popped, b :: pushed, last, Fifo.play_push_cons hpush hplay, by simp [hconserved, hcontents], hkept⟩
      · obtain ⟨popped, pushed, last, hplay, hkept⟩ := ih hv hs
        exact ⟨popped, pushed, last, Fifo.play_push_cons hpush hplay, hkept⟩
    | pop =>
      obtain ⟨hpop, -⟩ | ⟨c, g, hpop, hcontents⟩ := hv.tryPop_on_contents hn hs
      · obtain ⟨popped, pushed, last, hplay, hkept⟩ := ih hv hs
        exact ⟨popped, pushed, last, Fifo.play_pop_cons hpop hplay, hkept⟩
      · obtain ⟨popped, pushed, last, hplay, hconserved, hkept⟩ := ih (hv.tryPop hn hpop) (Fifo.started_of_tryPop hpop)
        exact ⟨c :: popped, pushed, last, Fifo.play_pop_cons hpop hplay, by simp [hconserved, hcontents], hkept⟩

/-- R128: a push fails exactly on `n - 1` bytes. -/
theorem Fifo.Valid.tryPush_eq_false_iff (b : Byte) :
    f.tryPush n b = .ok (false, f) ↔ (f.contents n).length = n - 1 := by
  obtain ⟨g, hpush, -, hroom⟩ | ⟨hpush, hfull⟩ := hv.tryPush_on_contents hn hs b
  · simp [hpush, hroom.ne]
  · simp [hpush, hfull]

theorem Fifo.Valid.tryPop_eq_none_iff : f.tryPop n = .ok (none, f) ↔ f.contents n = [] := by
  obtain ⟨hpop, hempty⟩ | ⟨c, g, hpop, hcontents⟩ := hv.tryPop_on_contents hn hs
  · simp [hpop, hempty]
  · simp [hpop, hcontents]

end Law

/-- Settles O46: conservation by induction on the calls; a push fails on `n - 1` bytes and a pop on none, and the count is the
number of bytes held. -/
theorem fifoLaw : Obligations.FifoLaw := by
  intro e f hv hs
  have hn := isFifoSize_two_pow e
  refine ⟨hv.play_conserves hn hs, fun b => ?_, ?_⟩
  · rw [hv.tryPush_eq_false_iff hn hs, hv.available_eq hn hs, Except.ok.injEq]
  · rw [hv.tryPop_eq_none_iff hn hs, hv.available_eq hn hs, Except.ok.injEq, List.length_eq_zero_iff]

/-! ## The capacity law -/

/-- As long as all of them fit, pushes in a row succeed and append their bytes. -/
theorem Fifo.Valid.play_pushes {n : Nat} (hn : IsFifoSize n) {bs : List Byte} {f : Fifo} (hv : f.Valid n)
    (hs : f.started) (hfit : (f.contents n).length + bs.length ≤ n - 1) :
    ∃ g, f.play n (bs.map .push) = .ok ([], bs, g) ∧ g.contents n = f.contents n ++ bs ∧ g.Valid n ∧ g.started := by
  induction bs generalizing f with
  | nil => exact ⟨f, rfl, by simp, hv, hs⟩
  | cons b bs ih =>
    rw [List.length_cons] at hfit
    obtain ⟨g, hpush, hcontents, -⟩ | ⟨-, hfull⟩ := hv.tryPush_on_contents hn hs b
    · have hfit' : (g.contents n).length + bs.length ≤ n - 1 := by simp [hcontents]; omega
      obtain ⟨last, hplay, happended, hkept⟩ := ih (hv.tryPush hn hpush) (Fifo.started_of_tryPush hpush) hfit'
      exact ⟨last, Fifo.play_push_cons hpush hplay, by simp [happended, hcontents], hkept⟩
    · omega

/-- RXISR on a full receive FIFO drops the byte and latches BUF_OVF (R206), whatever the receive register holds. -/
theorem exec_evRxisr_of_full {s : State} (hinv : s.Inv) (henabled : s.rxisrEnabled = true)
    (hfull : ∀ b, s.rx.tryPush (s.params.size .rx) b = .ok (false, s.rx)) :
    exec .evRxisr s = .next { s with rxifg := false, lastError := .bufOvf } := by
  have hrxifg : s.rxifg = true := by
    simp only [State.rxisrEnabled, Bool.and_eq_true] at henabled
    exact henabled.2
  obtain ⟨hbuf, hfe, hoe⟩ := hinv.rxifgFull hrxifg
  obtain ⟨b, hb⟩ := Option.isSome_iff_exists.1 hbuf
  obtain ⟨fe, hfe⟩ := Option.isSome_iff_exists.1 hfe
  obtain ⟨oe, hoe⟩ := Option.isSome_iff_exists.1 hoe
  simp [exec, execEvRxisr, henabled, takeInterrupt, rxHandler, hb, hfe, hoe, hfull]

/-- Settles O47: `n - 1` pushes fit into an empty FIFO and fill it; a full FIFO refuses the handler's push as any other. -/
theorem capacityLaw : Obligations.CapacityLaw := by
  refine ⟨fun e f bs b hv hs hempty hlength => ?_, fun s hinv hs henabled hfull => ?_⟩
  · have hn := isFifoSize_two_pow e
    obtain ⟨g, hplay, hcontents, hgv, hgs⟩ := hv.play_pushes hn hs (bs := bs) (by simp [hempty, hlength])
    rw [hempty, List.nil_append] at hcontents
    exact ⟨g, hplay, hcontents, (hgv.tryPush_eq_false_iff hn hgs b).2 (by rw [hcontents, hlength])⟩
  · exact exec_evRxisr_of_full hinv henabled fun b =>
      (hinv.rxValid.tryPush_eq_false_iff (isFifoSize_size _ _) hs b).2 hfull

end Sys2Proof.Machine
end

section
/-! Admission of the FIFO instructions (40_ring_buffer.md R120): one lemma for all six says when they are refused, one when those that
read indices fault. -/

namespace Sys2Proof.Machine

/-! ## The four cases of R120, instruction by instruction -/

section Admits

variable {s : State} {sel : Sel}

theorem State.admits_reset_iff : s.admits .reset sel = true ↔ s.gie = false ∨ s.handlerEnable sel = false := by
  simp [State.admits, RingOp.readsOnly, RingOp.mainRole]

theorem State.admits_push_iff : s.admits .push sel = true ↔ sel = .tx ∨ s.gie = false ∨ s.rxie = false := by
  cases sel <;> simp [State.admits, RingOp.readsOnly, RingOp.mainRole, State.handlerEnable]

theorem State.admits_pop_iff : s.admits .pop sel = true ↔ sel = .rx ∨ s.gie = false ∨ s.txie = false := by
  cases sel <;> simp [State.admits, RingOp.readsOnly, RingOp.mainRole, State.handlerEnable]

/-- A flush is the consumer's, as a pop is. -/
theorem State.admits_flush_eq_pop : s.admits .flush sel = s.admits .pop sel := by
  cases sel <;> rfl

end Admits

/-! ## Refusal and fault -/

/-- The FIFO operation a format F instruction asks for, and which FIFO it names (R91). -/
def ringCall : Instr → Option (RingOp × Sel)
  | .fReset sel => some (.reset, sel)
  | .fTrypush sel _ => some (.push, sel)
  | .fTrypop sel => some (.pop, sel)
  | .fPeek sel => some (.peek, sel)
  | .fAvail sel => some (.avail, sel)
  | .fFlush sel => some (.flush, sel)
  | _ => none

section RingCall

variable {i : Instr} {op : RingOp} {sel : Sel} {s : State}

/-- Of an operation that answers or faults, only the guard refuses. -/
theorem guarded_refused_iff {p : Prop} [Decidable p] {o : Host.Outcome State Fault Refusal} {r : Refusal}
    (ho : o ≠ .refused r) : (if p then o else .refused r) = .refused r ↔ ¬ p := by
  by_cases hp : p <;> simp [hp, ho]

/-- R120: a FIFO instruction is refused exactly where it is not admitted. -/
theorem exec_ring_refused_iff (hi : ringCall i = some (op, sel)) :
    exec i s = .refused .roleViolation ↔ ¬ s.admits op sel = true := by
  cases i <;> cases hi <;>
    simp only [exec, execFReset, execFTrypush, execFTrypop, execFPeek, execFAvail, execFFlush]
  case fReset => exact guarded_refused_iff nofun
  all_goals
    refine guarded_refused_iff ?_
    split <;> nofun

/-- R120: an admitted FIFO instruction faults where an index that it reads holds no value. F.RESET reads none, F.FLUSH `head` only. -/
theorem exec_ring_fault (hi : ringCall i = some (op, sel)) (hadmits : s.admits op sel = true) (hreads : op ≠ .reset)
    (hnone : (s.fifo sel).head = none ∨ (op ≠ .flush ∧ (s.fifo sel).tail = none)) :
    exec i s = .fault .uninitialisedRead := by
  have hindex : op ≠ .flush → (s.fifo sel).head = none ∨ (s.fifo sel).tail = none := by tauto
  cases i <;> cases hi
  case fReset => contradiction
  case fTrypush b => simp [exec, execFTrypush, hadmits, Fifo.tryPush_of_index_none (hindex nofun)]
  case fTrypop => simp [exec, execFTrypop, hadmits, Fifo.tryPop_of_index_none (hindex nofun)]
  case fPeek => exact exec_fPeek_fault (Fifo.tryPop_of_index_none (hindex nofun))
  case fAvail => simp [exec, execFAvail, Fifo.available_of_index_none (hindex nofun)]
  case fFlush =>
    have hhead : (s.fifo sel).head = none := by simpa using hnone
    simp [exec, execFFlush, hadmits, Fifo.flush_of_head_none hhead]

end RingCall

/-- Settles O20: refusal by the four cases of R120 for each operation, the end by the instructions' frame, the fault where the read is
admitted. -/
theorem roleViolationExactlyOutsideAdmission : Obligations.RoleViolationExactlyOutsideAdmission := by
  intro sel b s
  refine ⟨?_, ?_, ?_, ?_, ?_, ?_, fun i hi t h => ?_, fun i hi hnone => ?_⟩
  · rw [exec_ring_refused_iff rfl, State.admits_reset_iff]
    simp
  · rw [exec_ring_refused_iff rfl, State.admits_push_iff]
    cases sel <;> simp
  · rw [exec_ring_refused_iff rfl, State.admits_pop_iff]
    cases sel <;> simp
  · rw [exec_ring_refused_iff rfl, State.admits_flush_eq_pop, State.admits_pop_iff]
    cases sel <;> simp
  · rw [Ne, exec_ring_refused_iff rfl, State.admits_peek]
    simp
  · rw [Ne, exec_ring_refused_iff rfl, State.admits_avail]
    simp
  · obtain ⟨g, r, rfl, -⟩ := ring_next hi h
    rfl
  · obtain ⟨op, hop, hreads⟩ : ∃ op, ringCall i = some (op, sel) ∧ op ≠ .reset := by
      simp only [List.mem_cons, List.not_mem_nil, or_false] at hi
      obtain rfl | rfl | rfl | rfl | rfl := hi <;> exact ⟨_, rfl, nofun⟩
    rw [exec_ring_refused_iff hop]
    by_cases hadmits : s.admits op sel = true
    · exact .inl (exec_ring_fault hop hadmits hreads (.inl hnone))
    · exact .inr hadmits

end Sys2Proof.Machine
end

section
/-! What each FIFO instruction answers (40_ring_buffer.md R121 to R126). -/

namespace Sys2Proof.Machine

/-! ## The FIFO functions on given indices -/

section Indices

variable {n hd tl : Nat} {f : Fifo}

theorem Fifo.tryPush_of_full (hh : f.head = some hd) (ht : f.tail = some tl) (hfull : nextIndex n hd = tl) (b : Byte) :
    f.tryPush n b = .ok (false, f) := by
  simp only [Fifo.tryPush, hh, ht, hfull, if_true]

theorem Fifo.tryPush_of_room (hh : f.head = some hd) (ht : f.tail = some tl) (hroom : nextIndex n hd ≠ tl) (b : Byte) :
    f.tryPush n b =
      .ok (true, { buf := f.buf.write (nextIndex n hd) b, head := some (nextIndex n hd), tail := some tl }) := by
  simp only [Fifo.tryPush, hh, ht, hroom, if_false]

theorem Fifo.tryPop_of_empty (hh : f.head = some hd) (ht : f.tail = some tl) (hempty : hd = tl) :
    f.tryPop n = .ok (none, f) := by
  simp only [Fifo.tryPop, hh, ht, hempty, if_true]

theorem Fifo.tryPop_of_read {b : Byte} (hh : f.head = some hd) (ht : f.tail = some tl) (hne : hd ≠ tl)
    (hread : f.buf.read (nextIndex n tl) = some b) :
    f.tryPop n = .ok (some b, { f with tail := some (nextIndex n tl) }) := by
  simp only [Fifo.tryPop, hh, ht, hne, hread, if_false]

end Indices

/-! ## The answers -/

section Answers

variable {s : State} {sel : Sel} {g : Fifo}

theorem exec_fTrypush_of_ok {b : Byte} {ok : Bool} (hadmits : s.admits .push sel = true)
    (h : (s.fifo sel).tryPush (s.params.size sel) b = .ok (ok, g)) :
    exec (.fTrypush sel b) s =
      .next { s.setFifo sel g with mres := s.mres ++ [boolWord ok], mpc := s.mpc + 1 } := by
  simp only [exec, execFTrypush, hadmits, h, if_true, State.ringDone_eq]

theorem exec_fTrypop_of_ok {r : Option Byte} (hadmits : s.admits .pop sel = true)
    (h : (s.fifo sel).tryPop (s.params.size sel) = .ok (r, g)) :
    exec (.fTrypop sel) s =
      .next { s.setFifo sel g with mres := s.mres ++ [byteWord r], mpc := s.mpc + 1 } := by
  simp only [exec, execFTrypop, hadmits, h, if_true, State.ringDone_eq]

/-- A peek returns the word a pop would return. -/
theorem exec_fPeek_of_tryPop_ok {r : Option Byte} (h : (s.fifo sel).tryPop (s.params.size sel) = .ok (r, g)) :
    exec (.fPeek sel) s = .next { s with mres := s.mres ++ [byteWord r], mpc := s.mpc + 1 } := by
  have hpeek : (s.fifo sel).peek (s.params.size sel) = .ok r := by rw [Fifo.peek_eq_tryPop, h]; rfl
  simp only [exec, execFPeek, State.admits_peek, hpeek, if_true]
  rfl

end Answers

/-! ## The obligations -/

/-- Settles O14: a reset reads nothing, so where it is admitted it answers. -/
theorem fResetZeroesIndices : Obligations.FResetZeroesIndices := by
  refine fun sel s => ⟨decodeOfEncodeIsIdentity (.fReset sel), fun hadmits => ?_, fun hgie henable => ?_⟩
  · simp only [exec, execFReset, State.admits_reset_iff.2 hadmits, if_true, State.advance_setFifo_eq]
    cases sel <;> rfl
  · exact (exec_ring_refused_iff rfl).2 (by simp [State.admits_reset_iff, hgie, henable])

/-- Settles O15: what `try_push` answers on the indices given, by room or none. -/
theorem fTrypushAppendsOrReportsFull : Obligations.FTrypushAppendsOrReportsFull := by
  refine fun sel b s => ⟨decodeOfEncodeIsIdentity (.fTrypush sel b), ?_, fun h => ?_⟩
  · rintro rfl hgie hrxie
    exact (exec_ring_refused_iff rfl).2 (by simp [State.admits_push_iff, hgie, hrxie])
  · have hadmits := State.admits_push_iff.2 h
    refine ⟨fun hnone => exec_ring_fault rfl hadmits nofun (by simpa using hnone), fun hd tl hh ht =>
      ⟨fun hfull => ?_, fun hroom => exec_fTrypush_of_ok hadmits (Fifo.tryPush_of_room hh ht hroom b)⟩⟩
    rw [exec_fTrypush_of_ok hadmits (Fifo.tryPush_of_full hh ht hfull b), State.setFifo_fifo_self]
    rfl

/-- Settles O16: what `try_pop` answers on the indices given, by empty or not. -/
theorem fTrypopTakesOldestOrReportsEmpty : Obligations.FTrypopTakesOldestOrReportsEmpty := by
  refine fun sel s => ⟨decodeOfEncodeIsIdentity (.fTrypop sel), ?_, fun h => ?_⟩
  · rintro rfl hgie htxie
    exact (exec_ring_refused_iff rfl).2 (by simp [State.admits_pop_iff, hgie, htxie])
  · have hadmits := State.admits_pop_iff.2 h
    refine ⟨fun hnone => exec_ring_fault rfl hadmits nofun (by simpa using hnone), fun hd tl hh ht =>
      ⟨fun hempty => ?_, fun b hne hread => exec_fTrypop_of_ok hadmits (Fifo.tryPop_of_read hh ht hne hread)⟩⟩
    rw [exec_fTrypop_of_ok hadmits (Fifo.tryPop_of_empty hh ht hempty), State.setFifo_fifo_self]
    rfl

/-- Settles O17: a peek shows what a pop would take. -/
theorem fPeekShowsOldest : Obligations.FPeekShowsOldest := by
  refine fun sel s => ⟨decodeOfEncodeIsIdentity (.fPeek sel), fun hnone => ?_, fun hd tl hh ht => ⟨fun hempty => ?_, ?_⟩⟩
  · exact exec_fPeek_fault (Fifo.tryPop_of_index_none hnone)
  · exact exec_fPeek_of_tryPop_ok (Fifo.tryPop_of_empty hh ht hempty)
  · exact fun b hne hread => exec_fPeek_of_tryPop_ok (Fifo.tryPop_of_read hh ht hne hread)

/-- Settles O18: the count is `countBetween`, R125's formula. -/
theorem fAvailReturnsCount : Obligations.FAvailReturnsCount := by
  refine fun sel s => ⟨decodeOfEncodeIsIdentity (.fAvail sel), fun hnone => ?_, fun hd tl hh ht => ?_⟩
  · exact exec_ring_fault rfl (State.admits_avail s sel) nofun (by simpa using hnone)
  · simp only [exec, execFAvail, State.admits_avail, Fifo.available, hh, ht, if_true]
    rfl

/-- Settles O19: a flush reads `head` only, and its admission is a pop's. -/
theorem fFlushSetsTailToHead : Obligations.FFlushSetsTailToHead := by
  refine fun sel s => ⟨decodeOfEncodeIsIdentity (.fFlush sel), ?_, fun h => ?_⟩
  · rintro rfl hgie htxie
    exact (exec_ring_refused_iff rfl).2 (by simp [State.admits_flush_eq_pop, State.admits_pop_iff, hgie, htxie])
  · have hadmits : s.admits .flush sel = true := State.admits_flush_eq_pop.trans (State.admits_pop_iff.2 h)
    refine ⟨fun hnone => exec_ring_fault rfl hadmits nofun (.inl hnone), fun hd hh => ?_⟩
    simp only [exec, execFFlush, hadmits, Fifo.flush, hh, if_true]
    cases sel <;> rfl

end Sys2Proof.Machine
end

section
/-! No byte queued for transmission is lost or sent twice (41_transport_api.md R142, 60_exceptions.md R207): the bytes on the wire and,
behind them, those still queued are one stream, which only a push extends. -/

namespace Sys2Proof.Machine

/-! ## The stream -/

/-- The bytes sent (R34) and behind them those queued for transmission (R39), oldest first. -/
def State.txStream (s : State) : List Byte := s.wireOut ++ s.contents .tx

theorem State.txStream_congr {s t : State} (hwire : t.wireOut = s.wireOut) (hparams : t.params = s.params)
    (htx : t.tx = s.tx) : t.txStream = s.txStream := by
  simp only [State.txStream, State.contents, State.fifo_tx, hwire, hparams, htx]

/-- A push that found room extends the stream by its byte. -/
theorem State.Inv.txStream_push {s t : State} {b : Byte} (hinv : s.Inv) (hwire : t.wireOut = s.wireOut)
    (hparams : t.params = s.params) (hpush : s.tx.tryPush (s.params.size .tx) b = .ok (true, t.tx)) :
    t.txStream = s.txStream ++ [b] := by
  simp only [State.txStream, State.contents, State.fifo_tx, hwire, hparams,
    hinv.txValid.contents_tryPush (isFifoSize_size _ _) hpush, List.append_assoc]

/-! ## Room for a push -/

section Push

variable {n : Nat} {f g : Fifo} {b : Byte} {ok : Bool}

/-- R122: a push takes its byte exactly where it finds room. -/
theorem Fifo.hasRoom_iff_of_tryPush (h : f.tryPush n b = .ok (ok, g)) : f.hasRoom n ↔ ok = true := by
  obtain ⟨hd, tl, hh, ht, ⟨hfull, rfl, -⟩ | ⟨hroom, rfl, -⟩⟩ := Fifo.tryPush_cases h
  · simp [Fifo.hasRoom, hh, ht, hfull]
  · simp [Fifo.hasRoom, hh, ht, hroom]

theorem Fifo.eq_of_tryPush_false (h : f.tryPush n b = .ok (false, g)) : g = f := by
  obtain ⟨hd, tl, -, -, ⟨-, -, hg⟩ | ⟨-, hok, -⟩⟩ := Fifo.tryPush_cases h
  · exact hg
  · cases hok

end Push

/-! ## The main agent's step -/

/-- Command `c` is in state `s` a push of `b` on the TX FIFO: PUT's attempt, or F.TRYPUSH TX. -/
def attemptsTx (c : Instr) (s : State) (b : Byte) : Prop :=
  (c = .put b ∧ s.mphase = .zero) ∨ c = .fTrypush .tx b

/-- A main step queues a byte where its command is a push that finds room. -/
theorem queuesTx_evMstep_iff {c : Instr} {s : State} {b : Byte} (hc : s.command = some c) :
    queuesTx .evMstep s b ↔ s.tx.hasRoom (s.params.size .tx) ∧ attemptsTx c s b := by
  simp [queuesTx, attemptsTx, hc]

/-- A command that is no push on the TX FIFO and discards no queued byte leaves the TX FIFO. -/
theorem runCommand_tx_of_not_attempts {c : Instr} {s t : State} (h : runCommand c s = .next t)
    (hkeeps : discardsTx c = false) (hnone : ∀ b, ¬ attemptsTx c s b) : t.tx = s.tx := by
  cases c with
  | fReset sel =>
    obtain ⟨-, rfl⟩ := fReset_next h
    cases sel with
    | rx => rfl
    | tx => cases hkeeps
  | fTrypush sel b =>
    obtain ⟨-, ok, g, -, rfl⟩ := fTrypush_next h
    cases sel with
    | rx => rfl
    | tx => exact absurd (.inr rfl) (hnone b)
  | fTrypop sel =>
    obtain ⟨-, r, g, -, rfl⟩ := fTrypop_next h
    cases sel with
    | rx => rfl
    | tx => cases hkeeps
  | fPeek sel =>
    obtain ⟨r, -, rfl⟩ := fPeek_next h
    rfl
  | fAvail sel =>
    obtain ⟨k, -, rfl⟩ := fAvail_next h
    rfl
  | fFlush sel =>
    obtain ⟨-, g, -, rfl⟩ := fFlush_next h
    cases sel with
    | rx => rfl
    | tx => cases hkeeps
  | init => cases hkeeps
  | put b =>
    obtain ⟨hphase, -⟩ | ⟨-, rfl⟩ := put_next h
    · exact absurd (.inl ⟨rfl, hphase⟩) (hnone b)
    · simp [putComplete]
  | get | peek | avail | flush =>
    obtain ⟨g, e, r, m, p, x, rfl, -⟩ := rxCommand_next (by simp) ((exec_command rfl s).trans h)
    rfl
  | atomEnterAtomic | atomEnterNonatomic =>
    cases h
    rfl
  | atomExitRestore | atomExitOn | atomExitOff =>
    obtain ⟨captured, rest, -, rfl⟩ := exitSection_next h
    rfl
  | evMstep | evTxready | evRxisr | evTxisr | evRxarrive => cases h

/-- A push on the TX FIFO moves it as `try_push` does. -/
theorem runCommand_tx_of_attempts {c : Instr} {s t : State} {b : Byte} (h : runCommand c s = .next t)
    (hb : attemptsTx c s b) : ∃ ok, s.tx.tryPush (s.params.size .tx) b = .ok (ok, t.tx) := by
  obtain ⟨rfl, hphase⟩ | rfl := hb
  · obtain ⟨-, g, ok, p, hg, rfl⟩ | ⟨hone, -⟩ := put_frame h
    · exact ⟨ok, hg⟩
    · cases hphase.symm.trans hone
  · obtain ⟨-, ok, g, hg, rfl⟩ := fTrypush_next h
    exact ⟨ok, hg⟩

/-- A main step that discards no queued byte extends the stream by the byte it queues, if it queues one. -/
theorem State.Inv.txStream_evMstep {s t : State} (hinv : s.Inv) (h : exec .evMstep s = .next t)
    (hkeeps : ¬ eventDiscardsTx .evMstep s) :
    (∀ b, queuesTx .evMstep s b → t.txStream = s.txStream ++ [b]) ∧
    ((∀ b, ¬ queuesTx .evMstep s b) → t.txStream = s.txStream) := by
  have hstep := exec_next h
  obtain ⟨hparams, -⟩ := hstep.sameRun
  obtain ⟨hwire, -⟩ : t.wireOut = s.wireOut ∧ t.txbuf = s.txbuf := by simpa using hstep.wire_cases
  obtain ⟨c, hc, -, -, hrun⟩ := evMstep_next h
  simp only [queuesTx_evMstep_iff hc]
  constructor
  · rintro b ⟨hroom, hb⟩
    obtain ⟨ok, hpush⟩ := runCommand_tx_of_attempts hrun hb
    obtain rfl := (Fifo.hasRoom_iff_of_tryPush hpush).1 hroom
    exact hinv.txStream_push hwire hparams hpush
  · intro hnone
    refine State.txStream_congr hwire hparams ?_
    by_cases hattempts : ∃ b, attemptsTx c s b
    · obtain ⟨b, hb⟩ := hattempts
      obtain ⟨ok, hpush⟩ := runCommand_tx_of_attempts hrun hb
      have hfull : ok ≠ true := fun hok => hnone b ⟨(Fifo.hasRoom_iff_of_tryPush hpush).2 hok, hb⟩
      obtain rfl := Bool.eq_false_of_not_eq_true hfull
      exact Fifo.eq_of_tryPush_false hpush
    · exact runCommand_tx_of_not_attempts hrun (by simpa [eventDiscardsTx, hc] using hkeeps) (not_exists.1 hattempts)

/-! ## The other agents' steps -/

/-- The handlers and the environment keep the stream: what TXISR takes from the queue it puts on the wire. -/
theorem ExecStep.txStream_eq {i : Instr} {s t : State} (h : ExecStep i s t) (hev : i.isEvent = true) (hne : i ≠ .evMstep)
    (hinv : s.Inv) : t.txStream = s.txStream := by
  cases h
  case txready => exact State.txStream_congr rfl rfl rfl
  case rxarrive => exact State.txStream_congr rfl rfl rfl
  case rxisrPush => exact State.txStream_congr (by simp) (by simp) (by simp)
  case rxisrDrop => exact State.txStream_congr rfl rfl rfl
  case txisrSend b g hi hready hpop =>
    have hcontents := hinv.txValid.contents_tryPop_some (isFifoSize_size _ _) hpop
    simp [State.txStream, State.contents, hcontents]
  case txisrOff => exact State.txStream_congr rfl rfl rfl
  all_goals exact absurd (runsCommand.of_isEvent ‹_› hev).1 hne

/-! ## The obligation -/

/-- PUT's attempt goes on to phase 1 exactly where it finds room (R142). -/
theorem evMstep_put_mphase_iff {s t : State} {b : Byte} (h : exec .evMstep s = .next t)
    (hc : s.command = some (.put b)) (hphase : s.mphase = .zero) :
    t.mphase = .one ↔ s.tx.hasRoom (s.params.size .tx) := by
  obtain ⟨c, hc', -, -, hrun⟩ := evMstep_next h
  obtain rfl : .put b = c := Option.some.inj (hc.symm.trans hc')
  obtain ⟨-, ok, g, hg, ⟨rfl, rfl⟩ | ⟨rfl, rfl⟩⟩ | ⟨hone, -⟩ := put_next hrun
  · simp [Fifo.hasRoom_iff_of_tryPush hg]
  · simp [Fifo.hasRoom_iff_of_tryPush hg, hphase]
  · simp [hphase] at hone

/-- Settles O52: a main step by what its command does to the TX FIFO, any other event by its case. -/
theorem noQueuedByteLostOrRepeated : Obligations.NoQueuedByteLostOrRepeated := by
  intro i s t hinv hev h hkeeps
  have hput : ∀ b, i = .evMstep → s.command = some (.put b) → s.mphase = .zero →
      (t.mphase = .one ↔ s.tx.hasRoom (s.params.size .tx)) := by
    rintro b rfl
    exact evMstep_put_mphase_iff h
  by_cases hi : i = .evMstep
  · subst hi
    obtain ⟨hqueued, hkept⟩ := hinv.txStream_evMstep h hkeeps
    exact ⟨hqueued, hkept, hput⟩
  · exact ⟨fun b hb => absurd hb.1 hi, fun _ => (exec_next h).txStream_eq hev hi hinv, hput⟩

end Sys2Proof.Machine
end

section
/-! The main agent's step (41_transport_api.md R140): it runs the command at `mpc`, completes where the command is admitted, and stays at
its command only within a PUT or a GET. -/

namespace Sys2Proof.Machine

/-! ## Fetch and run -/

/-- EV.MSTEP is the command at `mpc`. -/
theorem exec_evMstep_of_command {s : State} {c : Instr} (hc : s.command = some c) (hcmd : c.isCommand = true) :
    exec .evMstep s = exec c s := by
  rw [exec_command hcmd]
  simp only [exec, execEvMstep, fetchCommand_of_command hc hcmd]

theorem State.command_of_prog {s : State} {w : Word} {c : Instr} (hw : s.prog[s.mpc]? = some w)
    (hdec : decodeWord w = some c) : s.command = some c := by
  simp only [State.command, hw, Option.bind_some, hdec]

/-- Settles O8: the schedule's fetch takes EV.MSTEP's word, which touches neither `prog` nor `mpc`. -/
theorem mainStepRunsCommandAtMpc : Obligations.MainStepRunsCommandAtMpc := by
  intro s w c hw hdec hcmd
  refine ⟨exec_evMstep_of_command (State.command_of_prog hw hdec) hcmd, fun rest hsched => ?_⟩
  rw [step_of_fetchEvent_ok (fetchEvent_of_isEvent hsched (decodeOfEncodeIsIdentity .evMstep) rfl)]
  exact exec_evMstep_of_command (State.command_of_prog hw hdec) hcmd

/-! ## Where an admitted command completes -/

theorem commandAdmitted.isCommand {c : Instr} {s : State} (h : commandAdmitted c s) : c.isCommand = true := by
  cases c with
  | evMstep | evTxready | evRxisr | evTxisr | evRxarrive => exact h.elim
  | _ => rfl

theorem finish_ne_refused (r : Except Fault State) (q : Refusal) : finish r ≠ .refused q := by
  cases r <;> exact nofun

theorem exitSection_ne_refused {s : State} (h : s.atomStack ≠ []) (policy : Bool → Bool) (q : Refusal) :
    exitSection policy s ≠ .refused q := by
  obtain ⟨captured, rest, hstack⟩ := List.exists_cons_of_ne_nil h
  simp [exitSection, hstack]

/-- A command that its rule admits is not refused: past its admission a command can only answer or fault. -/
theorem commandAdmitted.ne_refused {c : Instr} {s : State} (h : commandAdmitted c s) (q : Refusal) :
    runCommand c s ≠ .refused q := by
  cases c with
  | fReset sel => simp [runCommand, execFReset, show s.admits .reset sel = true from h]
  | fTrypush | fTrypop | fFlush =>
    simp only [commandAdmitted] at h
    simp only [runCommand, execFTrypush, execFTrypop, execFFlush, h, if_true]
    split <;> exact nofun
  | fPeek | fAvail =>
    simp only [runCommand, execFPeek, execFAvail, State.admits_peek, State.admits_avail, if_true]
    split <;> exact nofun
  | init =>
    obtain ⟨hquiet, hbaud⟩ := h
    simp [runCommand, execInit, hquiet, hbaud]
  | put b =>
    simp only [runCommand, execPut]
    split
    · exact finish_ne_refused _ q
    · exact nofun
  | get =>
    simp only [runCommand, execGet]
    split <;> exact finish_ne_refused _ q
  | peek | avail | flush =>
    simp only [runCommand, execPeek, execAvail, execFlush]
    split <;> exact nofun
  | atomEnterAtomic | atomEnterNonatomic => exact nofun
  | atomExitRestore | atomExitOn | atomExitOff => exact exitSection_ne_refused h _ q
  | evMstep | evTxready | evRxisr | evTxisr | evRxarrive => exact h.elim

/-- Settles O39: an admitted command is not refused, and over started FIFOs it does not fault. -/
theorem admittedMainStepCompletes : Obligations.AdmittedMainStepCompletes := by
  intro s c hinv hrx htx hc hadmitted
  rw [exec_evMstep_of_command hc hadmitted.isCommand, exec_command hadmitted.isCommand]
  cases h : runCommand c s with
  | next t => exact ⟨t, rfl, rfl⟩
  | fault f => exact absurd h (runCommand_noFault hinv hrx htx hc f)
  | refused q => exact absurd h (hadmitted.ne_refused q)

/-! ## Where `mpc` stays -/

/-- Settles O40: of the cases of a step, a main step is one that completes its command, or PUT's or GET's phase 0. -/
theorem mpcStaysOnlyInTwoPhaseCommands : Obligations.MpcStaysOnlyInTwoPhaseCommands := by
  intro s t h
  cases exec_next h
  case ring => exact .inl rfl
  case init => exact .inl rfl
  case putKick => exact .inl (by simp [putComplete])
  case getAttach => exact .inl rfl
  case atom => exact .inl rfl
  case putWait b hrun hphase => exact .inr ⟨rfl, hphase, .inl ⟨b, (hrun.of_isEvent rfl).2.1, .inl rfl⟩⟩
  case putQueue b g hrun hphase hpush => exact .inr ⟨rfl, hphase, .inl ⟨b, (hrun.of_isEvent rfl).2.1, .inr rfl⟩⟩
  case getPop b g hrun hphase hpop => exact .inr ⟨rfl, hphase, .inr ⟨(hrun.of_isEvent rfl).2.1, rfl⟩⟩
  all_goals contradiction

end Sys2Proof.Machine
end

section
/-! What each of the transport's commands answers (41_transport_api.md R141 to R147). -/

namespace Sys2Proof.Machine

/-! ## INIT -/

section Init

variable {s : State}

theorem State.handlersQuiet_iff : s.handlersQuiet = true ↔ s.gie = false ∨ (s.rxie = false ∧ s.txie = false) := by
  simp [State.handlersQuiet]

theorem State.baudInRange_iff :
    s.baudInRange = true ↔ 0 < s.params.baud ∧ s.params.fClk / s.params.baud < 2 ^ 16 := by
  simp [State.baudInRange]

theorem exec_init (hquiet : s.handlersQuiet = true) (hbaud : s.baudInRange = true) :
    exec .init s = .next s.initialised.advance :=
  (if_pos hquiet).trans (if_pos hbaud)

/-- With both tests failing INIT names the handlers too (log entry 6). -/
theorem exec_init_of_live (hlive : ¬ s.handlersQuiet = true) : exec .init s = .refused .initWithHandlersLive :=
  if_neg hlive

theorem exec_init_of_baud (hquiet : s.handlersQuiet = true) (hbaud : ¬ s.baudInRange = true) :
    exec .init s = .refused .baudOutOfRange :=
  (if_pos hquiet).trans (if_neg hbaud)

end Init

/-- Settles O22: the two tests of R141, each passed or failed; a quotient in range fits the field. -/
theorem initBringsTransportUp : Obligations.InitBringsTransportUp := by
  intro s
  have hlive (hgie : s.gie = true) (henable : s.rxie = true ∨ s.txie = true) : ¬ s.handlersQuiet = true := by
    rw [State.handlersQuiet_iff]
    rcases henable with h | h <;> simp [hgie, h]
  have hrange (h : s.params.baud = 0 ∨ 2 ^ 16 ≤ s.params.fClk / s.params.baud) : ¬ s.baudInRange = true := by
    rw [State.baudInRange_iff]
    omega
  refine ⟨decodeOfEncodeIsIdentity .init, fun hquiet hpos hlt => ⟨?_, ?_⟩, fun hgie henable _ _ => ?_,
    fun hquiet hbaud => ?_, fun hgie henable _ => ?_⟩
  · exact exec_init (State.handlersQuiet_iff.2 hquiet) (State.baudInRange_iff.2 ⟨hpos, hlt⟩)
  · exact (BitVec.toNat_ofNat _ _).trans (Nat.mod_eq_of_lt hlt)
  · exact exec_init_of_live (hlive hgie henable)
  · exact exec_init_of_baud (State.handlersQuiet_iff.2 hquiet) (hrange hbaud)
  · exact .inl (exec_init_of_live (hlive hgie henable))

/-! ## PUT -/

theorem State.kick_of_txie_on {s : State} (h : s.txie = true) : s.kick = s := if_pos h

theorem State.kick_of_txie_off {s : State} (h : s.txie = false) : s.kick = { s with txifg := true, txie := true } :=
  if_neg (by simp [h])

section Put

variable {s : State} {b : Byte} {g : Fifo}

/-- PUT's attempt is a push on TX. -/
theorem exec_put_of_room (hphase : s.mphase = .zero) (h : s.tx.tryPush (s.params.size .tx) b = .ok (true, g)) :
    exec (.put b) s = .next { s with tx := g, mphase := .one } := by
  simp only [exec, execPut, hphase, putAttempt, h, finish]

theorem exec_put_of_full (hphase : s.mphase = .zero) (h : s.tx.tryPush (s.params.size .tx) b = .ok (false, g)) :
    exec (.put b) s = .next s := by
  simp only [exec, execPut, hphase, putAttempt, h, finish]

theorem exec_put_fault {e : Fault} (hphase : s.mphase = .zero) (h : s.tx.tryPush (s.params.size .tx) b = .error e) :
    exec (.put b) s = .fault e := by
  simp only [exec, execPut, hphase, putAttempt, h, finish]

theorem exec_put_kick (hphase : s.mphase = .one) : exec (.put b) s = .next (putComplete b s) := by
  simp only [exec, execPut, hphase]

end Put

/-- Settles O23: phase 0 by what `try_push` answers, phase 1 by whether the transmit source was on. -/
theorem putQueuesWaitsAndKicks : Obligations.PutQueuesWaitsAndKicks := by
  refine fun b s => ⟨decodeOfEncodeIsIdentity (.put b), fun hphase hnone => ?_, fun hd tl hphase hh ht =>
    ⟨fun hroom => ?_, fun hfull => ?_⟩, fun hphase htxie => ?_, fun hphase htxie => ?_⟩
  · exact exec_put_fault hphase (Fifo.tryPush_of_index_none hnone b)
  · exact exec_put_of_room hphase (Fifo.tryPush_of_room hh ht hroom b)
  · exact exec_put_of_full hphase (Fifo.tryPush_of_full hh ht hfull b)
  · rw [exec_put_kick hphase, putComplete, State.kick_of_txie_off htxie]
    rfl
  · rw [exec_put_kick hphase, putComplete, State.kick_of_txie_on htxie]
    rfl

/-! ## GET and PEEK -/

section Receive

variable {s : State} {b : Byte} {g : Fifo}

/-- GET's first phase is a pop of RX. -/
theorem exec_get_of_empty (hphase : s.mphase = .zero) (h : s.rx.tryPop (s.params.size .rx) = .ok (none, g)) :
    exec .get s = .next (s.result noDataWord).advance := by
  simp only [exec, execGet, hphase, getPop, h, finish]

theorem exec_get_of_byte (hphase : s.mphase = .zero) (h : s.rx.tryPop (s.params.size .rx) = .ok (some b, g)) :
    exec .get s = .next { s with rx := g, mtmp := some b, mphase := .one } := by
  simp only [exec, execGet, hphase, getPop, h, finish]

theorem exec_get_attach (hphase : s.mphase = .one) (h : s.mtmp = some b) :
    exec .get s =
      .next { (s.result (statusWord s.lastError b)).advance with lastError := .none, mphase := .zero } := by
  simp only [exec, execGet, hphase, getAttach, h, finish]

/-- PEEK attaches the error to what a pop would return. -/
theorem exec_peek_of_tryPop_ok {r : Option Byte} (h : s.rx.tryPop (s.params.size .rx) = .ok (r, g)) :
    exec .peek s = .next (s.result (attachedWord s.lastError r)).advance := by
  have hpeek : s.rx.peek (s.params.size .rx) = .ok r := by rw [Fifo.peek_eq_tryPop, h]; rfl
  simp only [exec, execPeek, hpeek]

end Receive

/-- Settles O24: phase 0 by what `try_pop` answers, phase 1 by the byte kept. -/
theorem getTakesOldestWithError : Obligations.GetTakesOldestWithError := by
  refine fun s => ⟨decodeOfEncodeIsIdentity .get, fun hphase hnone => ?_, fun hd tl hphase hh ht =>
    ⟨fun hempty => ?_, fun b hne hread => ?_⟩, fun b hphase htmp => ?_⟩
  · exact exec_get_fault hphase (Fifo.tryPop_of_index_none hnone)
  · exact exec_get_of_empty hphase (Fifo.tryPop_of_empty hh ht hempty)
  · exact exec_get_of_byte hphase (Fifo.tryPop_of_read hh ht hne hread)
  · exact exec_get_attach hphase htmp

/-- Settles O26: PEEK by what a pop would return. -/
theorem peekShowsErrorWithoutClearing : Obligations.PeekShowsErrorWithoutClearing := by
  refine fun s => ⟨decodeOfEncodeIsIdentity .peek, fun hnone => ?_, fun hd tl hh ht =>
    ⟨fun hempty => ?_, fun b hne hread => ?_⟩⟩
  · exact exec_peek_fault (Fifo.tryPop_of_index_none hnone)
  · exact exec_peek_of_tryPop_ok (Fifo.tryPop_of_empty hh ht hempty)
  · exact exec_peek_of_tryPop_ok (Fifo.tryPop_of_read hh ht hne hread)

/-- Settles O27: the pop that GET's answer rests on is the one PEEK shows; GET's second step attaches the same error. -/
theorem peekAgreesWithNextGet : Obligations.PeekAgreesWithNextGet := by
  intro s p u hphase hpeek hget
  obtain ⟨-, r, g, hpop, hanswer⟩ | ⟨hone, -⟩ := get_next hget
  · rw [exec_peek_of_tryPop_ok hpop] at hpeek
    cases hpeek
    obtain ⟨rfl, rfl⟩ | ⟨b, rfl, rfl⟩ := hanswer
    · exact .inl ⟨hphase, rfl⟩
    · exact .inr ⟨rfl, _, exec_get_attach rfl rfl, rfl, rfl⟩
  · cases hphase.symm.trans hone

/-! ## AVAIL and FLUSH -/

/-- Settles O28: what `available` and `flush` of RX answer on the indices given. -/
theorem availAndFlushWorkOnRx : Obligations.AvailAndFlushWorkOnRx := by
  refine fun s => ⟨decodeOfEncodeIsIdentity .avail, decodeOfEncodeIsIdentity .flush, fun hnone => ⟨?_, ?_⟩,
    fun hd tl hh ht => ?_, fun hd hh => ?_⟩
  · simp only [exec, execAvail, Fifo.available_of_index_none (.inl hnone)]
  · simp only [exec, execFlush, Fifo.flush_of_head_none hnone]
  · simp only [exec, execAvail, Fifo.available, hh, ht]
    rfl
  · simp only [exec, execFlush, Fifo.flush, hh]
    rfl

end Sys2Proof.Machine
end

section
/-! The scoped atomic section (42_atomic_section.md R160 to R165): what its entries and exits answer. -/

namespace Sys2Proof.Machine

/-! ## Entry -/

@[simp] theorem State.enterSection_atomStack (s : State) (forced : Bool) :
    (s.enterSection forced).atomStack = s.gie :: s.atomStack := rfl

theorem exec_atomEnterAtomic (s : State) : exec .atomEnterAtomic s = .next (s.enterSection false) := rfl

theorem exec_atomEnterNonatomic (s : State) : exec .atomEnterNonatomic s = .next (s.enterSection true) := rfl

/-- The two entries differ in the value they force only. -/
theorem exec_sectionEntry {enter : Instr} (h : enter ∈ [Instr.atomEnterAtomic, .atomEnterNonatomic]) (s : State) :
    ∃ forced, exec enter s = .next (s.enterSection forced) := by
  obtain rfl | rfl : enter = .atomEnterAtomic ∨ enter = .atomEnterNonatomic := by simpa using h
  · exact ⟨false, exec_atomEnterAtomic s⟩
  · exact ⟨true, exec_atomEnterNonatomic s⟩

/-- Settles O30: each entry is `enterSection` with the value it forces, and its word is the one it encodes to. -/
theorem atomEnterCapturesAndForces : Obligations.AtomEnterCapturesAndForces := fun s =>
  ⟨decodeOfEncodeIsIdentity .atomEnterAtomic, decodeOfEncodeIsIdentity .atomEnterNonatomic,
    exec_atomEnterAtomic s, exec_atomEnterNonatomic s⟩

/-! ## Exit -/

theorem exitSection_of_cons {s : State} {captured : Bool} {rest : List Bool} (h : s.atomStack = captured :: rest)
    (policy : Bool → Bool) :
    exitSection policy s = .next { s with atomStack := rest, gie := policy captured }.advance := by
  simp only [exitSection, h]

theorem exitSection_of_nil {s : State} (h : s.atomStack = []) (policy : Bool → Bool) :
    exitSection policy s = .refused .unbalancedAtomicSection := by
  simp only [exitSection, h]

/-- Settles O31: the three exits are one exit under three policies, by whether a section is open. -/
theorem atomExitPopsAndSets : Obligations.AtomExitPopsAndSets := by
  refine fun s => ⟨decodeOfEncodeIsIdentity .atomExitRestore, decodeOfEncodeIsIdentity .atomExitOn,
    decodeOfEncodeIsIdentity .atomExitOff, fun captured rest hopen => ?_, fun hnone => ?_⟩
  · exact ⟨exitSection_of_cons hopen _, exitSection_of_cons hopen _, exitSection_of_cons hopen _⟩
  · exact ⟨exitSection_of_nil hnone _, exitSection_of_nil hnone _, exitSection_of_nil hnone _⟩

/-! ## Entry and exit -/

/-- Settles O32: the entry leaves the captured `gie` innermost on the stack, and RESTORE pops it into `gie`. -/
theorem sectionRestoresGie : Obligations.SectionRestoresGie := by
  intro enter s t u v henter ht hstack hv
  obtain ⟨forced, hentered⟩ := exec_sectionEntry henter s
  obtain rfl : s.enterSection forced = t := by simpa [hentered] using ht
  have hopen : u.atomStack = s.gie :: s.atomStack := by rw [hstack, State.enterSection_atomStack]
  obtain ⟨captured, rest, hpopped, rfl⟩ := exitSection_next hv
  obtain ⟨rfl, rfl⟩ := List.cons.inj (hpopped.symm.trans hopen)
  exact ⟨rfl, rfl⟩

end Sys2Proof.Machine
end

section
/-! The line editor's bounds (49_line_editor_collaborator.md R180, R185): what each edit keeps of them. -/

namespace Sys2Proof.Machine

/-- The editor at init is within bounds, whatever its cells hold (R180). -/
theorem editorInit_bounded {capacity : Nat} {bs : Byte} (hc : 2 ≤ capacity) (hb : ¬ printable bs) :
    (editorInit capacity bs).Bounded where
  capacityGe := hc
  backspaceCtl := hb
  cells := by simp [editorInit]
  positionLe := Nat.le_refl 0
  lenLe := Nat.zero_le _
  terminated := by intro h; cases h

section Bounds

variable {e : LineEditor} {c : Byte}

theorem LineEditor.Bounded.len_lt_cells (h : e.Bounded) : e.len < e.line.length := by
  have := h.capacityGe
  have := h.cells
  have := h.lenLe
  omega

/-- What an edit that leaves no line ready has to keep: the number of cells, and the order of the cursor, the length and the capacity. -/
theorem LineEditor.Bounded.edit (h : e.Bounded) {line : List Byte} {len position : Nat} {mode : EditMode}
    (hcells : line.length = e.line.length) (hpos : position ≤ len) (hlen : len ≤ e.capacity - 1) (hmode : mode ≠ .lineReady) :
    ({ e with line := line, len := len, position := position, mode := mode } : LineEditor).Bounded where
  capacityGe := h.capacityGe
  backspaceCtl := h.backspaceCtl
  cells := hcells.trans h.cells
  positionLe := hpos
  lenLe := hlen
  terminated := fun hready => absurd hready hmode

/-- A change of the state tag alone. -/
theorem LineEditor.Bounded.setMode (h : e.Bounded) {mode : EditMode} (hmode : mode ≠ .lineReady) :
    ({ e with mode := mode } : LineEditor).Bounded :=
  h.edit rfl h.positionLe h.lenLe hmode

theorem editBackspace_bounded (h : e.Bounded) (hm : e.mode ≠ .lineReady) : (editBackspace e).1.Bounded := by
  have hpos := h.positionLe
  have hlen := h.lenLe
  have hcells := h.len_lt_cells
  unfold editBackspace
  split
  · exact h
  · exact h.edit (moveCells_length (by omega) (by omega)) (by omega) (by omega) hm

theorem editInsert_bounded (h : e.Bounded) (hm : e.mode ≠ .lineReady) : (editInsert e c).1.Bounded := by
  have hpos := h.positionLe
  have hlen := h.lenLe
  have hcells := h.cells
  have hcap := h.capacityGe
  unfold editInsert
  split
  · exact h
  · refine h.edit ?_ (by omega) (by omega) hm
    rw [List.length_set, moveCells_length (by omega) (by omega)]

/-- The one edit that leaves a line ready writes the NUL that `Bounded` then asks for (R185). -/
theorem editTerminate_bounded (h : e.Bounded) : (editTerminate e).1.Bounded where
  capacityGe := h.capacityGe
  backspaceCtl := h.backspaceCtl
  cells := List.length_set.trans h.cells
  positionLe := h.positionLe
  lenLe := h.lenLe
  terminated := fun _ => List.getElem?_set_self h.len_lt_cells

theorem editRight_bounded (h : e.Bounded) : (editRight e).1.Bounded := by
  have hpos := h.positionLe
  unfold editRight
  split
  · exact h.setMode nofun
  · exact h.edit rfl (by omega) h.lenLe nofun

theorem editLeft_bounded (h : e.Bounded) : (editLeft e).1.Bounded := by
  have hpos := h.positionLe
  unfold editLeft
  split
  · exact h.setMode nofun
  · exact h.edit rfl (by omega) h.lenLe nofun

theorem editDelete_bounded (h : e.Bounded) : (editDelete e).1.Bounded := by
  have hpos := h.positionLe
  have hlen := h.lenLe
  have hcells := h.len_lt_cells
  unfold editDelete
  split
  · exact h.setMode nofun
  · exact h.edit (moveCells_length (by omega) (by omega)) (by omega) (by omega) nofun

/-- Every class of R194 in its order. -/
theorem feedRunning_bounded (h : e.Bounded) (hm : e.mode ≠ .lineReady) : (feedRunning e c).1.Bounded := by
  unfold feedRunning
  split
  · exact editBackspace_bounded h hm
  split
  · exact h.setMode nofun
  split
  · exact editTerminate_bounded h
  split
  · exact editInsert_bounded h hm
  · exact h

/-- Every class of R189 in its order. -/
theorem feedBracket_bounded (h : e.Bounded) : (feedBracket e c).1.Bounded := by
  unfold feedBracket
  split
  · exact editRight_bounded h
  split
  · exact editLeft_bounded h
  split
  · exact editDelete_bounded h
  split
  · exact h.setMode nofun
  · exact h.setMode nofun

theorem feed_bounded (h : e.Bounded) (c : Byte) : (feed e c).1.Bounded := by
  unfold feed
  split
  case h_1 hrun => exact feedRunning_bounded h (by simp [hrun])
  case h_2 => exact h.setMode (by split <;> nofun)
  case h_3 => exact feedBracket_bounded h
  case h_4 => exact h.setMode nofun
  case h_5 => exact h

theorem feedAll_bounded (h : e.Bounded) (cs : List Byte) : (feedAll e cs).1.Bounded := by
  induction cs generalizing e with
  | nil => exact h
  | cons c cs ih => exact ih (feed_bounded h c)

/-- A ready line is drained to an empty one. -/
theorem drain_of_ready (hm : e.mode = .lineReady) :
    drain e = (some e.text, { e with len := 0, position := 0, mode := .running }) := by
  simp only [drain, hm]

theorem drain_of_not_ready (hm : e.mode ≠ .lineReady) : drain e = (none, e) := by
  unfold drain
  split
  case h_1 hready => exact absurd hready hm
  all_goals rfl

theorem drain_bounded (h : e.Bounded) : (drain e).2.Bounded := by
  by_cases hm : e.mode = .lineReady
  · rw [drain_of_ready hm]
    exact h.edit rfl (Nat.le_refl 0) (Nat.zero_le _) nofun
  · rwa [drain_of_not_ready hm]

end Bounds

/-- Settles O57: the editor at init, then feeding by state and input class, and draining. -/
theorem editorKeepsBounds : Obligations.EditorKeepsBounds :=
  ⟨fun _ _ hc hb => ⟨editorInit_bounded hc hb, editorInit_bounded hc (by decide), rfl⟩,
    fun _ c h => ⟨feed_bounded h c, drain_bounded h⟩⟩

/-- Settles O60: `drain` by whether a line is ready; the drained editor is RUNNING, so the second drain is of the other case. -/
theorem editorDrainIsIdempotent : Obligations.EditorDrainIsIdempotent := by
  refine fun e => ⟨fun hready => ⟨fun c => ?_, _, drain_of_ready hready, ?_, rfl, rfl, rfl, ?_⟩, drain_of_not_ready⟩
  · simp only [feed, hready]
  · exact List.take_zero
  · exact drain_of_not_ready nofun

end Sys2Proof.Machine
end

section
/-! A line typed at the line's end (49_line_editor_collaborator.md R185, R186, R192, R193): each printable byte is appended, and CR ends
the line. -/

namespace Sys2Proof.Machine

/-- The editor with `c` inserted: the tail from `position` moved right by one, and `c` in the gap (R186). -/
def LineEditor.inserted (e : LineEditor) (c : Byte) : LineEditor :=
  { e with line := (moveCells e.line (e.position + 1) e.position (e.len - e.position)).set e.position c,
           len := e.len + 1, position := e.position + 1 }

/-- The editor with `cs` written after the line's last character and the cursor behind them. -/
def LineEditor.appended (e : LineEditor) (cs : List Byte) : LineEditor :=
  { e with line := e.text ++ cs ++ e.line.drop (e.len + cs.length), len := e.len + cs.length, position := e.len + cs.length }

section Typing

variable {e : LineEditor} {c : Byte} {cs : List Byte}

theorem LineEditor.text_length (h : e.len ≤ e.line.length) : e.text.length = e.len :=
  List.length_take_of_le h

theorem LineEditor.appended_nil (hend : e.position = e.len) : e.appended [] = e := by
  rcases e with ⟨capacity, backspace, line, len, position, mode⟩
  obtain rfl : position = len := hend
  simp [LineEditor.appended, LineEditor.text]

theorem LineEditor.appended_text (h : e.len ≤ e.line.length) : (e.appended cs).text = e.text ++ cs := by
  have hlen : (e.text ++ cs).length = e.len + cs.length := by rw [List.length_append, text_length h]
  exact List.take_left' hlen

/-- Appending leaves the cells behind the new characters. -/
theorem LineEditor.appended_line_drop (h : e.len ≤ e.line.length) (n : Nat) :
    (e.appended cs).line.drop (e.len + cs.length + n) = e.line.drop (e.len + cs.length + n) := by
  have hlen : (e.text ++ cs).length = e.len + cs.length := by rw [List.length_append, text_length h]
  simp only [LineEditor.appended]
  rw [← hlen, List.drop_length_add_append, List.drop_drop]

theorem LineEditor.appended_cons (h : e.len ≤ e.line.length) : (e.appended [c]).appended cs = e.appended (c :: cs) := by
  have hlen : e.len + (c :: cs).length = e.len + [c].length + cs.length := by
    rw [Nat.add_assoc, ← List.length_append, List.singleton_append]
  rw [appended.eq_def (e.appended [c]), appended.eq_def e (c :: cs), appended_text h, hlen, List.append_assoc e.text]
  simp only [← appended_line_drop (cs := [c]) h]
  rfl

/-- At the line's end nothing is moved, and the byte takes the first cell after the line. -/
theorem LineEditor.inserted_at_end (hend : e.position = e.len) (h : e.len < e.line.length) : e.inserted c = e.appended [c] := by
  have hline : (moveCells e.line (e.len + 1) e.len 0).set e.len c = e.text ++ [c] ++ e.line.drop (e.len + 1) := by
    simp [moveCells, LineEditor.text, List.set_eq_take_append_cons_drop, h]
  simp only [LineEditor.inserted, LineEditor.appended, hend, Nat.sub_self, hline, List.length_singleton]

/-- A printable byte fed to a running editor with room is inserted and echoed. -/
theorem feed_of_room (h : e.Bounded) (hm : e.mode = .running) (hp : printable c) (hroom : e.len < e.capacity - 1) :
    feed e c = (e.inserted c, [c]) := by
  rw [feed_printable hm hp h.backspaceCtl, editInsert, if_neg (Nat.ne_of_lt hroom), LineEditor.inserted]

/-- Printable bytes that fit, fed at the line's end, are appended and echoed. -/
theorem feedAll_printable (h : e.Bounded) (hm : e.mode = .running) (hend : e.position = e.len)
    (hp : ∀ c ∈ cs, printable c) (hfit : e.len + cs.length ≤ e.capacity - 1) :
    feedAll e cs = (e.appended cs, cs) := by
  induction cs generalizing e with
  | nil => rw [LineEditor.appended_nil hend, feedAll]
  | cons c cs ih =>
    obtain ⟨hc, hcs⟩ := List.forall_mem_cons.mp hp
    rw [List.length_cons] at hfit
    have hfeed : feed e c = (e.appended [c], [c]) := by
      rw [feed_of_room h hm hc (by omega), LineEditor.inserted_at_end hend h.len_lt_cells]
    have hnext : (e.appended [c]).Bounded := by simpa only [hfeed] using feed_bounded h c
    have hrest : feedAll (e.appended [c]) cs = (e.appended (c :: cs), cs) := by
      rw [← LineEditor.appended_cons (c := c) (cs := cs) h.len_lt_cells.le]
      exact ih hnext hm rfl hcs (by simp only [LineEditor.appended, List.length_singleton]; omega)
    simp only [feedAll, hfeed, hrest, List.singleton_append]

/-- Bytes fed one after the other (R193). -/
theorem feedAll_append (e : LineEditor) (xs ys : List Byte) :
    feedAll e (xs ++ ys) =
      ((feedAll (feedAll e xs).1 ys).1, (feedAll e xs).2 ++ (feedAll (feedAll e xs).1 ys).2) := by
  induction xs generalizing e with
  | nil => rfl
  | cons x xs ih => simp only [List.cons_append, feedAll, ih, List.append_assoc]

/-- CR in RUNNING ends the line, unless CR is the Backspace byte (R194's order), and emits nothing. -/
theorem feedAll_cr (hm : e.mode = .running) (hb : e.backspace ≠ 0x0D) : feedAll e [0x0D] = ((editTerminate e).1, []) := by
  have hfeed : feed e 0x0D = editTerminate e := by
    simp only [feed, hm, feedRunning, if_neg hb.symm]
    rfl
  simp only [feedAll, hfeed]
  rfl

/-- The NUL stands after the line's characters. -/
theorem editTerminate_text (e : LineEditor) : (editTerminate e).1.text = e.text :=
  List.take_set_of_le (Nat.le_refl e.len)

end Typing

/-- Settles O58: the typed bytes are appended to the empty line, and CR writes the NUL behind them, which `text` does not read. -/
theorem editorReturnsTypedLine : Obligations.EditorReturnsTypedLine := by
  intro capacity bs cs hc hb hcr hp hfit
  have hinit := editorInit_bounded hc hb
  have htyped : feedAll (editorInit capacity bs) cs = ((editorInit capacity bs).appended cs, cs) :=
    feedAll_printable hinit rfl rfl hp (by simpa only [editorInit, Nat.zero_add] using hfit)
  have hbounded : ((editorInit capacity bs).appended cs).Bounded := by
    simpa only [htyped] using feedAll_bounded hinit cs
  have hended : feedAll (editorInit capacity bs) (cs ++ [0x0D]) =
      ((editTerminate ((editorInit capacity bs).appended cs)).1, cs) := by
    rw [feedAll_append, htyped, feedAll_cr rfl hcr, List.append_nil]
  have htext : (editTerminate ((editorInit capacity bs).appended cs)).1.text = cs := by
    rw [editTerminate_text, LineEditor.appended_text hinit.len_lt_cells.le]
    rfl
  have hnul := (editTerminate_bounded hbounded).terminated rfl
  have hdrained := drain_of_ready (e := (editTerminate ((editorInit capacity bs).appended cs)).1) rfl
  rw [htext] at hdrained
  rw [hended]
  refine ⟨rfl, ?_, _, hdrained, rfl⟩
  simpa only [editTerminate, LineEditor.appended, editorInit, Nat.zero_add] using hnul

end Sys2Proof.Machine
end

section
/-! Backspace after an insertion (49_line_editor_collaborator.md R183, R186). -/

namespace Sys2Proof.Machine

/-- Opening a gap at `p` and closing it again gives back every cell but the one the tail was moved into: what the second move writes, it
reads where the first one put it, behind the byte in the gap. -/
theorem moveCells_undo {cells : List Byte} {p n : Nat} (h : p + n < cells.length) (c : Byte) {i : Nat} (hi : i ≠ p + n) :
    (moveCells ((moveCells cells (p + 1) p n).set p c) p (p + 1) n)[i]? = cells[i]? := by
  have hlen : ((moveCells cells (p + 1) p n).set p c).length = cells.length := by
    rw [List.length_set, moveCells_length (by omega) (by omega)]
  rw [moveCells_getElem? (by omega) (by omega)]
  split
  case isTrue hmoved =>
    rw [List.getElem?_set_ne (by omega), moveCells_getElem? (by omega) (by omega), if_pos (by omega)]
    congr 1
    omega
  case isFalse hout =>
    rw [List.getElem?_set_ne (by omega), moveCells_getElem? (by omega) (by omega), if_neg (by omega)]

section Undo

variable {e : LineEditor} {c : Byte}

theorem feed_backspace (hm : e.mode = .running) : feed e e.backspace = editBackspace e := by
  simp only [feed, hm, feedRunning, if_true]

theorem editBackspace_of_position_pos (hpos : e.position ≠ 0) :
    (editBackspace e).1 =
      { e with line := moveCells e.line (e.position - 1) e.position (e.len - e.position), len := e.len - 1,
               position := e.position - 1 } := by
  rw [editBackspace, if_neg hpos]

/-- Backspace after an insertion: nothing but the cells can differ from before. -/
theorem feed_backspace_inserted (hm : e.mode = .running) :
    (feed (e.inserted c) e.backspace).1 =
      { e with line := moveCells (e.inserted c).line e.position (e.position + 1) (e.len - e.position) } := by
  have hback : feed (e.inserted c) e.backspace = editBackspace (e.inserted c) := feed_backspace hm
  rw [hback, editBackspace_of_position_pos (Nat.succ_ne_zero e.position)]
  simp only [LineEditor.inserted, Nat.add_sub_cancel, Nat.add_sub_add_right]

end Undo

/-- Settles O59: the two moves cancel on every cell but the one at the line's old end, which the line's text does not hold. -/
theorem editorBackspaceUndoesInsert : Obligations.EditorBackspaceUndoesInsert := by
  intro e c h hm hroom hp
  have hpos := h.positionLe
  have hcells := h.len_lt_cells
  have hcell : ∀ i, i ≠ e.len → (feed (e.inserted c) e.backspace).1.line[i]? = e.line[i]? := by
    intro i hi
    rw [feed_backspace_inserted hm]
    exact moveCells_undo (by omega) c (by omega)
  have hframe : { (feed (e.inserted c) e.backspace).1 with line := e.line } = e := by rw [feed_backspace_inserted hm]
  have hlen : (feed (e.inserted c) e.backspace).1.len = e.len := by rw [feed_backspace_inserted hm]
  rw [feed_of_room h hm hp hroom]
  refine ⟨List.ext_getElem? fun i => ?_, hframe, hcell⟩
  rw [LineEditor.text_getElem?, LineEditor.text_getElem?, hlen]
  split
  case isTrue hi => exact hcell i (Nat.ne_of_lt hi)
  case isFalse => rfl

end Sys2Proof.Machine
end

section
/-! The handlers and the environment (60_exceptions.md R203 to R215): where each event answers, what it answers, and that the two
handlers write apart. -/

namespace Sys2Proof.Machine

/-! ## Enabling -/

theorem State.rxisrEnabled_iff {s : State} : s.rxisrEnabled = true ↔ s.gie = true ∧ s.rxie = true ∧ s.rxifg = true := by
  simp [State.rxisrEnabled, and_assoc]

theorem State.txisrEnabled_iff {s : State} : s.txisrEnabled = true ↔ s.gie = true ∧ s.txie = true ∧ s.txifg = true := by
  simp [State.txisrEnabled, and_assoc]

theorem State.txreadyEnabled_iff {s : State} : s.txreadyEnabled = true ↔ s.txifg = false := by
  simp [State.txreadyEnabled]

theorem State.mainEnabled_iff {s : State} : s.mainEnabled = true ↔ s.mpc < s.prog.length := by
  simp [State.mainEnabled]

/-- A handler that is taken answers or faults. -/
theorem takeInterrupt_ne_refused (body : State → Except Fault State) (s : State) (q : Refusal) :
    takeInterrupt body s ≠ .refused q := by
  unfold takeInterrupt
  split <;> exact nofun

/-- A guarded operation is refused with its guard's refusal or its own. -/
theorem guarded_ne_refused {p : Prop} [Decidable p] {o : Host.Outcome State Fault Refusal} {r q : Refusal}
    (ho : o ≠ .refused q) (hr : r ≠ q) : (if p then o else .refused r) ≠ .refused q := by
  split
  · exact ho
  · simpa using hr

/-- Whatever refuses a command, it is not that the main agent has no step. -/
theorem runCommand_ne_agentNotEnabled (c : Instr) (s : State) : runCommand c s ≠ .refused .agentNotEnabled := by
  cases c with
  | fReset => exact guarded_ne_refused nofun nofun
  | fTrypush | fTrypop | fFlush =>
    refine guarded_ne_refused ?_ nofun
    split <;> exact nofun
  | fPeek | fAvail =>
    simp only [runCommand, execFPeek, execFAvail, State.admits_peek, State.admits_avail, if_true]
    split <;> exact nofun
  | init => exact guarded_ne_refused (guarded_ne_refused nofun nofun) nofun
  | put =>
    simp only [runCommand, execPut]
    split
    · exact finish_ne_refused _ _
    · exact nofun
  | get =>
    simp only [runCommand, execGet]
    split <;> exact finish_ne_refused _ _
  | peek | avail | flush =>
    simp only [runCommand, execPeek, execAvail, execFlush]
    split <;> exact nofun
  | atomEnterAtomic | atomEnterNonatomic => exact nofun
  | atomExitRestore | atomExitOn | atomExitOff =>
    simp only [runCommand, execAtomExitRestore, execAtomExitOn, execAtomExitOff, exitSection]
    split <;> exact nofun
  | evMstep | evTxready | evRxisr | evTxisr | evRxarrive => exact nofun

/-- The fetch of a command finds the agent without a step exactly past the program's end (R104). -/
theorem fetchCommand_eq_agentNotEnabled_iff {s : State} :
    fetchCommand s = .error .agentNotEnabled ↔ s.prog.length ≤ s.mpc := by
  rw [← List.getElem?_eq_none_iff]
  unfold fetchCommand
  split
  · simp_all
  · split
    · simp_all
    · split <;> simp_all

theorem exec_evMstep_refused_iff {s : State} :
    exec .evMstep s = .refused .agentNotEnabled ↔ s.prog.length ≤ s.mpc := by
  rw [← fetchCommand_eq_agentNotEnabled_iff]
  simp only [exec, execEvMstep]
  split
  · simp_all [runCommand_ne_agentNotEnabled]
  · simp_all

theorem exec_evTxready_refused_iff {s : State} : exec .evTxready s = .refused .agentNotEnabled ↔ s.txifg = true := by
  refine (guarded_refused_iff (p := s.txreadyEnabled = true) (o := .next { s with txifg := true }) nofun).trans ?_
  simp [State.txreadyEnabled_iff]

/-- Settles O9: each of the three guarded events refuses by its guard only, the main agent by its fetch only. -/
theorem eventsRefusedExactlyWhenDisabled : Obligations.EventsRefusedExactlyWhenDisabled := by
  refine fun s => ⟨?_, ?_, exec_evTxready_refused_iff, exec_evMstep_refused_iff, fun b fe oe => nofun⟩
  · exact (guarded_refused_iff (takeInterrupt_ne_refused _ _ _)).trans (not_congr State.rxisrEnabled_iff)
  · exact (guarded_refused_iff (takeInterrupt_ne_refused _ _ _)).trans (not_congr State.txisrEnabled_iff)

/-! ## What each event answers -/

/-- The state RXISR leaves (R206, R208): the byte pushed to `g` and its status latched, or the byte dropped. -/
def State.received (s : State) (fe oe : Bool) (g : Fifo) (taken : Bool) : State :=
  if taken then { s with rxifg := false, rx := g }.latchLineError fe oe
  else { s with rxifg := false, lastError := .bufOvf }

/-- The state TXISR leaves (R207): the byte popped sent and `g` left behind it, or the source switched off. -/
def State.transmitted (s : State) (g : Fifo) : Option Byte → State
  | some b => { s with tx := g, txbuf := some b, wireOut := s.wireOut ++ [b], txifg := false }
  | none => { s with txie := false }

theorem takeInterrupt_of_ok {body : State → Except Fault State} {s u : State} (h : body { s with gie := false } = .ok u) :
    takeInterrupt body s = .next { u with gie := s.gie } := by
  simp only [takeInterrupt, h]

theorem rxHandler_of_ok {s : State} {b : Byte} {fe oe taken : Bool} {g : Fifo} (hb : s.rxbuf = some b)
    (hfe : s.rxfe = some fe) (hoe : s.rxoe = some oe) (hpush : s.rx.tryPush (s.params.size .rx) b = .ok (taken, g)) :
    rxHandler s = .ok (s.received fe oe g taken) := by
  unfold rxHandler
  split
  · rename_i hb' hfe' hoe'
    obtain rfl := Option.some.inj (hb.symm.trans hb')
    obtain rfl := Option.some.inj (hfe.symm.trans hfe')
    obtain rfl := Option.some.inj (hoe.symm.trans hoe')
    rw [hpush]
    cases taken <;> rfl
  · simp_all

theorem txHandler_of_ok {s : State} {r : Option Byte} {g : Fifo} (hpop : s.tx.tryPop (s.params.size .tx) = .ok (r, g)) :
    txHandler s = .ok (s.transmitted g r) := by
  cases r <;> simp only [txHandler, hpop] <;> rfl

/-- RXISR answers where it is enabled, its inputs hold values and its push answers. -/
theorem exec_evRxisr_eq_next_iff {s t : State} :
    exec .evRxisr s = .next t ↔ s.rxisrEnabled = true ∧
      ∃ b fe oe taken g, s.rxbuf = some b ∧ s.rxfe = some fe ∧ s.rxoe = some oe ∧
        s.rx.tryPush (s.params.size .rx) b = .ok (taken, g) ∧ t = s.received fe oe g taken := by
  constructor
  · intro h
    obtain ⟨hgie, hrxie, hrxifg, b, fe, oe, taken, g, hb, hfe, hoe, hpush, hcases⟩ := evRxisr_next h
    refine ⟨State.rxisrEnabled_iff.2 ⟨hgie, hrxie, hrxifg⟩, b, fe, oe, taken, g, hb, hfe, hoe, hpush, ?_⟩
    obtain ⟨rfl, rfl⟩ | ⟨rfl, rfl⟩ := hcases <;> rfl
  · rintro ⟨henabled, b, fe, oe, taken, g, hb, hfe, hoe, hpush, rfl⟩
    refine (if_pos henabled).trans ((takeInterrupt_of_ok (rxHandler_of_ok hb hfe hoe hpush)).trans (congrArg _ ?_))
    cases taken <;> cases fe <;> cases oe <;> rfl

/-- TXISR answers where it is enabled and its pop answers. -/
theorem exec_evTxisr_eq_next_iff {s t : State} :
    exec .evTxisr s = .next t ↔ s.txisrEnabled = true ∧
      ∃ r g, s.tx.tryPop (s.params.size .tx) = .ok (r, g) ∧ t = s.transmitted g r := by
  constructor
  · intro h
    obtain ⟨hgie, htxie, htxifg, r, g, hpop, hcases⟩ := evTxisr_next h
    refine ⟨State.txisrEnabled_iff.2 ⟨hgie, htxie, htxifg⟩, r, g, hpop, ?_⟩
    obtain ⟨b, rfl, rfl⟩ | ⟨rfl, rfl⟩ := hcases <;> rfl
  · rintro ⟨henabled, r, g, hpop, rfl⟩
    refine (if_pos henabled).trans ((takeInterrupt_of_ok (txHandler_of_ok hpop)).trans (congrArg _ ?_))
    cases r <;> rfl

theorem exec_evTxready {s : State} (h : s.txifg = false) : exec .evTxready s = .next { s with txifg := true } :=
  if_pos (State.txreadyEnabled_iff.2 h)

/-- What a line error latches (R208): one of the two where both bits are set, and the draw counted; nothing for a clean byte. -/
theorem State.latchLineError_cases (s : State) (fe oe : Bool) :
    ∃ e d, s.latchLineError fe oe = { s with lastError := e, draws := d } ∧
      (fe = true → oe = true → e = .frame ∨ e = .overrun) ∧
      (fe = true → oe = false → e = .frame) ∧
      (fe = false → oe = true → e = .overrun) ∧
      (fe = false → oe = false → e = s.lastError) ∧
      (fe = false ∨ oe = false → d = s.draws) := by
  cases fe with
  | false =>
    cases oe with
    | false => exact ⟨s.lastError, s.draws, rfl, by simp⟩
    | true => exact ⟨.overrun, s.draws, rfl, by simp⟩
  | true =>
    cases oe with
    | false => exact ⟨.frame, s.draws, rfl, by simp⟩
    | true => exact ⟨if Config.drawFrame s.draws then .frame else .overrun, s.draws + 1, rfl, by split <;> simp⟩

/-- Settles O34: the push by room, and what is latched behind it by the status. -/
theorem rxisrPushesOrDrops : Obligations.RxisrPushesOrDrops := by
  refine ⟨decodeOfEncodeIsIdentity .evRxisr, fun s b fe oe hd tl hgie hrxie hrxifg hb hfe hoe hh ht => ?_⟩
  have hanswers {taken : Bool} {g : Fifo} (hpush : s.rx.tryPush (s.params.size .rx) b = .ok (taken, g)) :
      exec .evRxisr s = .next (s.received fe oe g taken) :=
    exec_evRxisr_eq_next_iff.2 ⟨State.rxisrEnabled_iff.2 ⟨hgie, hrxie, hrxifg⟩, b, fe, oe, taken, g, hb, hfe, hoe, hpush, rfl⟩
  refine ⟨fun hfull => hanswers (Fifo.tryPush_of_full hh ht hfull b), fun hroom => ?_⟩
  obtain ⟨e, d, hlatched, hkinds⟩ := State.latchLineError_cases
    { s with rxifg := false, rx := _ } fe oe
  exact ⟨e, d, (hanswers (Fifo.tryPush_of_room hh ht hroom b)).trans (congrArg _ hlatched), hkinds⟩

/-- Settles O35: what `try_pop` answers on the indices given, by empty or not. -/
theorem txisrSendsOrSwitchesOff : Obligations.TxisrSendsOrSwitchesOff := by
  refine ⟨decodeOfEncodeIsIdentity .evTxisr, fun s hd tl hgie htxie htxifg hh ht => ?_⟩
  have hanswers {r : Option Byte} {g : Fifo} (hpop : s.tx.tryPop (s.params.size .tx) = .ok (r, g)) :
      exec .evTxisr s = .next (s.transmitted g r) :=
    exec_evTxisr_eq_next_iff.2 ⟨State.txisrEnabled_iff.2 ⟨hgie, htxie, htxifg⟩, r, g, hpop, rfl⟩
  exact ⟨fun hempty => hanswers (Fifo.tryPop_of_empty hh ht hempty),
    fun b hne hread => hanswers (Fifo.tryPop_of_read hh ht hne hread)⟩

/-- Settles O36: the words are those the two events encode to. -/
theorem environmentEventsSetFlags : Obligations.EnvironmentEventsSetFlags := fun _ =>
  ⟨fun b fe oe => ⟨decodeOfEncodeIsIdentity (.evRxarrive b fe oe), rfl⟩, decodeOfEncodeIsIdentity .evTxready,
    exec_evTxready, exec_evTxready_refused_iff.2⟩

/-! ## What the handlers leave unchanged -/

/-- RXISR writes `rx`, `rxifg`, `last_error` and the model's count of draws. -/
theorem State.received_eq (s : State) (fe oe : Bool) (g : Fifo) (taken : Bool) :
    ∃ f e d, s.received fe oe g taken = { s with rx := f, rxifg := false, lastError := e, draws := d } ∧ (f = g ∨ f = s.rx) := by
  cases taken with
  | false => exact ⟨_, _, _, rfl, .inr rfl⟩
  | true =>
    obtain ⟨e, d, hlatched, -⟩ := State.latchLineError_cases { s with rxifg := false, rx := g } fe oe
    exact ⟨g, e, d, hlatched, .inl rfl⟩

/-- Settles O37: each handler by the fields it writes, its FIFO by the frame of the push or the pop. -/
theorem handlersFrame : Obligations.HandlersFrame := by
  refine fun s t => ⟨fun h => ?_, fun h => ?_⟩
  · obtain ⟨-, b, fe, oe, taken, g, -, -, -, hpush, rfl⟩ := exec_evRxisr_eq_next_iff.1 h
    obtain ⟨htail, hbuf⟩ := Fifo.tryPush_frame hpush
    obtain ⟨f, e, d, heq, rfl | rfl⟩ := s.received_eq fe oe g taken
    · simpa [heq, sameMain, sameRun, sameStorageBut, htail] using hbuf
    · simp [heq, sameMain, sameRun, sameStorageBut]
  · obtain ⟨-, r, g, hpop, rfl⟩ := exec_evTxisr_eq_next_iff.1 h
    obtain ⟨hbuf, hhead⟩ := Fifo.tryPop_frame hpop
    cases r <;> simp [State.transmitted, sameMain, sameRun, sameStorage, hbuf, hhead]

/-! ## Either order -/

/-- What one handler writes the other neither reads nor writes. -/
theorem State.transmitted_received (s : State) (fe oe taken : Bool) (f g : Fifo) (r : Option Byte) :
    (s.received fe oe f taken).transmitted g r = (s.transmitted g r).received fe oe f taken := by
  cases r <;> cases taken <;> cases fe <;> cases oe <;> rfl

/-- What TXISR reads RXISR leaves. -/
theorem exec_evTxisr_received {s : State} {r : Option Byte} {g : Fifo} (henabled : s.txisrEnabled = true)
    (hpop : s.tx.tryPop (s.params.size .tx) = .ok (r, g)) (fe oe taken : Bool) (f : Fifo) :
    exec .evTxisr (s.received fe oe f taken) = .next ((s.received fe oe f taken).transmitted g r) := by
  obtain ⟨f', e, d, heq, -⟩ := s.received_eq fe oe f taken
  rw [heq]
  exact exec_evTxisr_eq_next_iff.2 ⟨henabled, r, g, hpop, rfl⟩

/-- What RXISR reads TXISR leaves. -/
theorem exec_evRxisr_transmitted {s : State} {b : Byte} {fe oe taken : Bool} {f : Fifo} (henabled : s.rxisrEnabled = true)
    (hb : s.rxbuf = some b) (hfe : s.rxfe = some fe) (hoe : s.rxoe = some oe)
    (hpush : s.rx.tryPush (s.params.size .rx) b = .ok (taken, f)) (g : Fifo) (r : Option Byte) :
    exec .evRxisr (s.transmitted g r) = .next ((s.transmitted g r).received fe oe f taken) := by
  cases r <;> exact exec_evRxisr_eq_next_iff.2 ⟨henabled, b, fe, oe, taken, f, hb, hfe, hoe, hpush, rfl⟩

/-- Settles O38: after either handler the other finds its inputs as they were, and the writes commute. -/
theorem handlersCommute : Obligations.HandlersCommute := by
  intro s s₁ s₂ hrx htx
  obtain ⟨hrxEnabled, b, fe, oe, taken, f, hb, hfe, hoe, hpush, rfl⟩ := exec_evRxisr_eq_next_iff.1 hrx
  obtain ⟨htxEnabled, r, g, hpop, rfl⟩ := exec_evTxisr_eq_next_iff.1 htx
  refine ⟨_, exec_evTxisr_received htxEnabled hpop fe oe taken f, ?_⟩
  rw [State.transmitted_received]
  exact exec_evRxisr_transmitted hrxEnabled hb hfe hoe hpush g r

end Sys2Proof.Machine
end

section
/-! No queued byte is left without a live transmit source (60_exceptions.md R212): in a program that writes the TX FIFO through INIT, PUT
and PUTS only, each step keeps `State.kickInv`. -/

namespace Sys2Proof.Machine

/-- `txie` is cleared by INIT and by TXISR only (R29). -/
theorem ExecStep.txie_off {i : Instr} {s t : State} (h : ExecStep i s t) (hoff : t.txie = false) :
    s.txie = false ∨ runsCommand i s .init ∨ i = .evTxisr := by
  cases h
  case init hrun => exact .inr (.inl hrun)
  case txisrOff hi => exact .inr (.inr hi)
  case putKick => simp [putComplete] at hoff
  all_goals exact .inl (by simpa using hoff)

/-- The command at `mpc` of such a program is no format F instruction that writes TX. -/
theorem txThroughPutOnly.command {s : State} {c : Instr} (hprog : txThroughPutOnly s.prog) (hc : s.command = some c) :
    c ≠ .fReset .tx ∧ (∀ b, c ≠ .fTrypush .tx b) ∧ c ≠ .fTrypop .tx ∧ c ≠ .fFlush .tx := by
  obtain ⟨w, hw, hdec⟩ := Option.bind_eq_some_iff.1 hc
  exact hprog w (List.mem_of_getElem? hw) c hdec

/-- Of such a program's commands INIT and PUT alone write the TX FIFO. -/
theorem runCommand_tx_of_txThroughPutOnly {c : Instr} {s t : State} (hprog : txThroughPutOnly s.prog)
    (hc : s.command = some c) (h : runCommand c s = .next t) (hinit : c ≠ .init) (hput : ∀ b, c ≠ .put b) :
    t.tx = s.tx := by
  obtain ⟨hreset, hpush, hpop, hflush⟩ := hprog.command hc
  refine runCommand_tx_of_not_attempts h (by simp [discardsTx, hreset, hpop, hflush, hinit]) ?_
  rintro b (⟨rfl, -⟩ | rfl)
  · exact hput b rfl
  · exact hpush b rfl

theorem State.contents_congr {s t : State} {sel : Sel} (hparams : t.params = s.params) (hfifo : t.fifo sel = s.fifo sel) :
    t.contents sel = s.contents sel := by
  simp only [State.contents, hparams, hfifo]

/-- The invariant rests on the TX FIFO, `txie` and where the main agent stands. -/
theorem State.kickInv.congr {s t : State} (hkick : s.kickInv) (hparams : t.params = s.params) (htx : t.tx = s.tx)
    (htxie : t.txie = s.txie) (hphase : t.mphase = s.mphase) (hc : t.command = s.command) : t.kickInv := by
  have hcontents : t.contents .tx = s.contents .tx := State.contents_congr hparams htx
  simpa only [State.kickInv, hcontents, htxie, hphase, hc] using hkick

/-- PUT by its phases: the byte queued awaits its kick, and the kick sets `txie`. -/
theorem execPut_kickInv {s t : State} {b : Byte} (hkick : s.kickInv) (hc : s.command = some (.put b))
    (h : execPut b s = .next t) : t.kickInv := by
  obtain ⟨-, ok, g, -, ⟨-, rfl⟩ | ⟨-, rfl⟩⟩ | ⟨-, rfl⟩ := put_next h
  · exact fun _ => .inr ⟨rfl, b, hc⟩
  · exact hkick
  · intro hoff
    simp [putComplete] at hoff

theorem evMstep_kickInv {s t : State} (hkick : s.kickInv) (hprog : txThroughPutOnly s.prog)
    (h : exec .evMstep s = .next t) : t.kickInv := by
  obtain ⟨hparams, -⟩ := (exec_next h).sameRun
  obtain ⟨c, hc, -, -, hrun⟩ := evMstep_next h
  by_cases hput : ∃ b, c = .put b
  · obtain ⟨b, rfl⟩ := hput
    exact execPut_kickInv hkick hc hrun
  by_cases hinit : c = .init
  · subst hinit
    obtain ⟨-, -, rfl⟩ := init_next hrun
    exact fun _ => .inl (Fifo.contents_reset _ _)
  intro hoff
  have hquiet : s.txie = false := by
    obtain hquiet | ⟨-, heq | ⟨-, hc', -⟩⟩ | heq := (exec_next h).txie_off hoff
    · exact hquiet
    · cases heq
    · exact absurd (Option.some.inj (hc.symm.trans hc')) hinit
    · cases heq
  have htx : t.tx = s.tx := runCommand_tx_of_txThroughPutOnly hprog hc hrun hinit (not_exists.1 hput)
  obtain hempty | ⟨-, b, hb⟩ := hkick hquiet
  · exact .inl ((State.contents_congr (sel := .tx) hparams htx).trans hempty)
  · exact absurd ⟨b, Option.some.inj (hc.symm.trans hb)⟩ hput

/-- TXISR switches its source off on an empty FIFO only. -/
theorem evTxisr_kickInv {s t : State} (h : exec .evTxisr s = .next t) : t.kickInv := by
  obtain ⟨henabled, r, g, hpop, rfl⟩ := exec_evTxisr_eq_next_iff.1 h
  cases r with
  | none => exact fun _ => .inl (Fifo.contents_tryPop_none hpop).2
  | some b =>
    intro hoff
    obtain ⟨-, htxie, -⟩ := State.txisrEnabled_iff.1 henabled
    cases htxie.symm.trans hoff

/-- An event keeps the invariant. -/
theorem exec_kickInv {i : Instr} {s t : State} (hkick : s.kickInv) (hprog : txThroughPutOnly s.prog)
    (hev : i.isEvent = true) (h : exec i s = .next t) : t.kickInv := by
  cases i with
  | evMstep => exact evMstep_kickInv hkick hprog h
  | evTxisr => exact evTxisr_kickInv h
  | evTxready =>
    obtain ⟨-, rfl⟩ := evTxready_next h
    exact hkick.congr rfl rfl rfl rfl rfl
  | evRxarrive b fe oe =>
    cases h
    exact hkick.congr rfl rfl rfl rfl rfl
  | evRxisr =>
    obtain ⟨-, b, fe, oe, taken, g, -, -, -, -, rfl⟩ := exec_evRxisr_eq_next_iff.1 h
    obtain ⟨f, e, d, heq, -⟩ := s.received_eq fe oe g taken
    rw [heq]
    exact hkick.congr rfl rfl rfl rfl rfl
  | _ => simp [Instr.isEvent, Instr.format] at hev

/-- Settles O51: the fetch takes a word from the schedule, of which R212 says nothing, and the event keeps the invariant. -/
theorem stepKeepsKickInvariant : Obligations.StepKeepsKickInvariant := by
  intro s t _ hprog hkick h
  obtain ⟨w, rest, i, -, -, hev, hexec⟩ := step_next h
  exact exec_kickInv (s := { s with sched := rest }) hkick hprog hev hexec

end Sys2Proof.Machine
end

section
/-! The transmit handler and the transmitter taking turns (41_transport_api.md R149, 60_exceptions.md R207, R215). -/

namespace Sys2Proof.Machine

/-- A step that answers, then `k` more. -/
theorem run_succ_of_step {s t : State} (h : step s = .next t) (k : Nat) :
    Host.Core.run Sys2Proof.core (k + 1) s = Host.Core.run Sys2Proof.core k t := by
  have h : Sys2Proof.core.step s = .next t := h
  simp only [Host.Core.run, h]

/-- One turn of each: the byte popped is on the wire, and the transmitter is ready again. -/
theorem run_txisr_txready {s : State} {rest : List Word} {c : Byte} {g : Fifo} (henabled : s.txisrEnabled = true)
    (hpop : s.tx.tryPop (s.params.size .tx) = .ok (some c, g)) (hsched : s.sched = 0x7300 :: 0x7100 :: rest) (k : Nat) :
    Host.Core.run Sys2Proof.core (k + 2) s =
      Host.Core.run Sys2Proof.core k
        { s with sched := rest, tx := g, txbuf := some c, wireOut := s.wireOut ++ [c], txifg := true } := by
  have hsend : step s = .next (State.transmitted { s with sched := 0x7100 :: rest } g (some c)) := by
    rw [step_of_fetchEvent_ok (fetchEvent_of_isEvent hsched (decodeOfEncodeIsIdentity .evTxisr) rfl)]
    exact exec_evTxisr_eq_next_iff.2 ⟨henabled, some c, g, hpop, rfl⟩
  rw [run_succ_of_step hsend]
  refine run_succ_of_step ?_ k
  rw [step_of_fetchEvent_ok (fetchEvent_of_isEvent rfl (decodeOfEncodeIsIdentity .evTxready) rfl)]
  exact exec_evTxready rfl

/-- Settles O53: by induction on the bytes queued, one turn of each for the oldest. -/
theorem alternatingScheduleSendsAllQueued : Obligations.AlternatingScheduleSendsAllQueued := by
  intro s n rest hv hs hgie htxie htxifg hlength hsched
  have hn := isFifoSize_size s.params .tx
  induction n generalizing s with
  | zero =>
    have hempty : s.contents .tx = [] := List.length_eq_zero_iff.1 hlength
    exact ⟨s, rfl, by simp [hempty], hempty, htxifg, by simpa using hsched⟩
  | succ n ih =>
    obtain ⟨-, hempty⟩ | ⟨c, g, hpop, hcontents⟩ := hv.tryPop_on_contents hn hs
    · simp [State.contents, hempty] at hlength
    · have hcontents : s.contents .tx = c :: g.contents (s.params.size .tx) := hcontents
      have hrest : (g.contents (s.params.size .tx)).length = n := by simpa [hcontents] using hlength
      obtain ⟨t, hrun, hwire, hdone⟩ := ih
        { s with sched := _, tx := g, txbuf := some c, wireOut := s.wireOut ++ [c], txifg := true }
        (hv.tryPop hn hpop) (Fifo.started_of_tryPop hpop) hgie htxie rfl hrest rfl hn
      refine ⟨t, ?_, ?_, hdone⟩
      · exact (run_txisr_txready (State.txisrEnabled_iff.2 ⟨hgie, htxie, htxifg⟩) hpop hsched (2 * n)).trans hrun
      · rw [hcontents]
        exact hwire.trans (List.append_assoc _ _ _)

end Sys2Proof.Machine
end

section
/-! Fair runs send what is queued and let a PUT complete (60_exceptions.md R217, 41_transport_api.md R142, R149). What a run only ever
gains and cannot gain for ever stands still from some state on: the wire while bytes are missing from it, and `mpc`. Fairness then
says that it does not stand still before its time. -/

namespace Sys2Proof.Machine

/-- A rising sequence of numbers below a bound is constant from some place on. -/
theorem exists_forall_ge_eq_of_monotone {f : Nat → Nat} {bound : Nat} (hmono : Monotone f) (hbound : ∀ n, f n ≤ bound) :
    ∃ k, ∀ n, k ≤ n → f n = f k := by
  have hbdd : BddAbove (Set.range f) := ⟨bound, by rintro _ ⟨n, rfl⟩; exact hbound n⟩
  obtain ⟨k, hk⟩ := Nat.sSup_mem (Set.range_nonempty f) hbdd
  exact ⟨k, fun n hn => le_antisymm ((le_csSup hbdd ⟨n, rfl⟩).trans hk.ge) (hmono hn)⟩

/-! ## Along a run -/

section Run

variable {ev : Nat → Instr} {r : Nat → State} (hrun : IsRun ev r)

include hrun

theorem IsRun.isEvent (n : Nat) : (ev n).isEvent = true := (hrun n).1

theorem IsRun.execStep (n : Nat) : ExecStep (ev n) (r n) (r (n + 1)) := exec_next (hrun n).2

theorem IsRun.exec_of_eq {n : Nat} {i : Instr} (h : ev n = i) : exec i (r n) = .next (r (n + 1)) := h ▸ (hrun n).2

theorem IsRun.inv (hinv : (r 0).Inv) (n : Nat) : (r n).Inv := by
  induction n with
  | zero => exact hinv
  | succ n ih => exact (hrun.execStep n).inv (hrun.isEvent n) ih

theorem IsRun.prog_eq (n : Nat) : (r n).prog = (r 0).prog := by
  induction n with
  | zero => rfl
  | succ n ih => exact (hrun.execStep n).sameRun.2.1.trans ih

theorem IsRun.kickInv (hkick : (r 0).kickInv) (hprog : txThroughPutOnly (r 0).prog) (n : Nat) : (r n).kickInv := by
  induction n with
  | zero => exact hkick
  | succ n ih => exact exec_kickInv ih (hrun.prog_eq n ▸ hprog) (hrun.isEvent n) (hrun n).2

/-- The wire only grows (R34). -/
theorem IsRun.wireOut_prefix {n m : Nat} (h : n ≤ m) : (r n).wireOut <+: (r m).wireOut := by
  refine Nat.rel_of_forall_rel_succ_of_le (· <+: ·) (f := fun n => (r n).wireOut) (fun n => ?_) h
  obtain ⟨hwire, -⟩ | ⟨-, -, -, b, hwire, -⟩ := (hrun.execStep n).wire_cases
  · exact hwire ▸ List.prefix_rfl
  · exact hwire ▸ List.prefix_append _ _

/-- While no queued byte is discarded the stream only grows (R142, R207). -/
theorem IsRun.txStream_prefix (hinv : ∀ n, (r n).Inv) (hkeeps : ∀ n, ¬ eventDiscardsTx (ev n) (r n)) {n m : Nat} (h : n ≤ m) :
    (r n).txStream <+: (r m).txStream := by
  refine Nat.rel_of_forall_rel_succ_of_le (· <+: ·) (f := fun n => (r n).txStream) (fun n => ?_) h
  obtain ⟨hqueued, hkept, -⟩ := noQueuedByteLostOrRepeated _ _ _ (hinv n) (hrun.isEvent n) (hrun n).2 (hkeeps n)
  by_cases hq : ∃ b, queuesTx (ev n) (r n) b
  · obtain ⟨b, hb⟩ := hq
    exact ⟨[b], (hqueued b hb).symm⟩
  · exact ⟨[], (List.append_nil _).trans (hkept (not_exists.1 hq)).symm⟩

theorem IsRun.mpc_monotone : Monotone fun n => (r n).mpc := by
  refine monotone_nat_of_le_succ fun n => ?_
  obtain hmpc | ⟨hmpc, -⟩ := (hrun.execStep n).mpc_cases (hrun.isEvent n) <;> omega

end Run

/-! ## The transmitter and its handler -/

theorem State.txStream_of_empty {s : State} (h : s.contents .tx = []) : s.txStream = s.wireOut := by
  simp [State.txStream, h]

/-- `txifg` is cleared only by a byte sent (R29). -/
theorem ExecStep.txifg_of_wireOut_eq {i : Instr} {s t : State} (h : ExecStep i s t) (hwire : t.wireOut = s.wireOut)
    (htxifg : s.txifg = true) : t.txifg = true := by
  cases h
  case txisrSend => simp at hwire
  all_goals simp [putComplete, State.initialised, htxifg]

/-- TXISR with bytes queued sends one. -/
theorem evTxisr_wireOut_ne {s t : State} (h : exec .evTxisr s = .next t) (hqueued : s.contents .tx ≠ []) :
    t.wireOut ≠ s.wireOut := by
  obtain ⟨-, r, g, hpop, rfl⟩ := exec_evTxisr_eq_next_iff.1 h
  cases r with
  | none => exact absurd (Fifo.contents_tryPop_none hpop).2 hqueued
  | some b => simp [State.transmitted]

section Transmit

variable {ev : Nat → Instr} {r : Nat → State} (hrun : IsRun ev r)
  (hready : weaklyFairTo State.txreadyEnabled .evTxready ev r) (hisr : weaklyFairTo State.txisrEnabled .evTxisr ev r)

include hrun hready

/-- The transmitter is ready again and again (R215). -/
theorem IsRun.txifg_again (n : Nat) : ∃ m, n ≤ m ∧ (r m).txifg = true := by
  by_contra! hbusy
  have henabled : ∀ m, n ≤ m → (r m).txreadyEnabled = true := fun m hm =>
    State.txreadyEnabled_iff.2 (Bool.eq_false_of_not_eq_true (hbusy m hm))
  obtain ⟨m, hm, hev⟩ := hready n henabled
  obtain ⟨-, hnext⟩ := evTxready_next (hrun.exec_of_eq hev)
  exact hbusy (m + 1) (by omega) (by rw [hnext])

include hisr

/-- With interrupts on, the source live and bytes queued, the wire does not stand still. -/
theorem IsRun.wireOut_moves {n : Nat}
    (hlive : ∀ m, n ≤ m → (r m).gie = true ∧ (r m).txie = true ∧ (r m).contents .tx ≠ []) :
    ∃ m, n ≤ m ∧ (r m).wireOut ≠ (r n).wireOut := by
  by_contra! hstill
  have hsame : ∀ m, n ≤ m → (r (m + 1)).wireOut = (r m).wireOut := fun m hm =>
    (hstill (m + 1) (by omega)).trans (hstill m hm).symm
  obtain ⟨k, hk, hset⟩ := hrun.txifg_again hready n
  have hset : ∀ m, k ≤ m → (r m).txifg = true := by
    refine Nat.le_induction hset fun m hm ih => ?_
    exact (hrun.execStep m).txifg_of_wireOut_eq (hsame m (by omega)) ih
  have henabled : ∀ m, k ≤ m → (r m).txisrEnabled = true := fun m hm =>
    have ⟨hgie, htxie, _⟩ := hlive m (by omega)
    State.txisrEnabled_iff.2 ⟨hgie, htxie, hset m hm⟩
  obtain ⟨m, hm, hev⟩ := hisr k henabled
  obtain ⟨-, -, hqueued⟩ := hlive m (by omega)
  exact evTxisr_wireOut_ne (hrun.exec_of_eq hev) hqueued (hsame m (by omega))

/-- If from some state on interrupts are on and the source is live for as long as bytes of the first state's stream are missing from the
wire, none of them is missing in the end. -/
theorem IsRun.sends_stream (hinv : ∀ n, (r n).Inv) (hkeeps : ∀ n, ¬ eventDiscardsTx (ev n) (r n)) {start : Nat}
    (hgie : ∀ n, start ≤ n → (r n).gie = true)
    (hsource : ∀ n, start ≤ n → (r n).txie = true ∨ (r 0).txStream <+: (r n).wireOut) :
    ∃ m, (r 0).txStream <+: (r m).wireOut := by
  by_contra! hmissing
  have hstream : ∀ n, (r 0).txStream <+: (r n).txStream := fun n => hrun.txStream_prefix hinv hkeeps (Nat.zero_le n)
  have hbound : ∀ n, (r n).wireOut.length ≤ (r 0).txStream.length := fun n => by
    by_contra! hlong
    exact hmissing n (List.prefix_of_prefix_length_le (hstream n) (List.prefix_append _ _) hlong.le)
  have hmono : Monotone fun n => (r n).wireOut.length := fun n m h => (hrun.wireOut_prefix h).length_le
  obtain ⟨k, hk⟩ := exists_forall_ge_eq_of_monotone hmono hbound
  obtain ⟨m, hm, hmoved⟩ := hrun.wireOut_moves hready hisr (n := max start k) fun n hn =>
    ⟨hgie n (by omega), (hsource n (by omega)).resolve_right (hmissing n), fun hempty =>
      hmissing n (State.txStream_of_empty hempty ▸ hstream n)⟩
  have hlength : (r (max start k)).wireOut.length = (r m).wireOut.length :=
    (hk _ (by omega)).trans (hk _ (by omega)).symm
  exact hmoved ((hrun.wireOut_prefix hm).eq_of_length hlength).symm

end Transmit

/-- Short of INIT, the source is switched off only once nothing is queued (R207). -/
theorem txie_or_sent {i : Instr} {s t : State} (hev : i.isEvent = true) (h : exec i s = .next t)
    (hkeeps : ¬ eventDiscardsTx i s) (hlive : s.txie = true) : t.txie = true ∨ t.wireOut = s.txStream := by
  rcases hoff : t.txie with _ | _
  · right
    obtain hoff' | hinit | rfl := (exec_next h).txie_off hoff
    · cases hlive.symm.trans hoff'
    · obtain ⟨rfl, hc, -⟩ := hinit.of_isEvent hev
      exact absurd ⟨rfl, _, hc, rfl⟩ hkeeps
    · obtain ⟨-, r, g, hpop, rfl⟩ := exec_evTxisr_eq_next_iff.1 h
      cases r with
      | none => exact (State.txStream_of_empty (Fifo.contents_tryPop_none hpop).2).symm
      | some b => cases hlive.symm.trans hoff
  · exact .inl rfl

/-- Settles O54: the source stays live until the FIFO has been found empty, and then every byte queued at the start is on the wire. -/
theorem fairRunSendsAllQueued : Obligations.FairRunSendsAllQueued := by
  intro ev r hrun hready hisr hgie hkeeps hinv htxie
  have hinv := hrun.inv hinv
  refine hrun.sends_stream hready hisr hinv hkeeps (start := 0) (fun n _ => hgie n) fun n _ => ?_
  induction n with
  | zero => exact .inl htxie
  | succ n ih =>
    obtain hlive | hsent := ih (Nat.zero_le n)
    · refine (txie_or_sent (hrun.isEvent n) (hrun n).2 (hkeeps n) hlive).imp_right fun hsent => ?_
      exact hsent ▸ hrun.txStream_prefix hinv hkeeps (Nat.zero_le n)
    · exact .inr (hsent.trans (hrun.wireOut_prefix (Nat.le_succ n)))

/-! ## The main agent -/

/-- `gie` moves only where a command completes (R167). -/
theorem ExecStep.gie_of_mpc_eq {i : Instr} {s t : State} (h : ExecStep i s t) (hmpc : t.mpc = s.mpc) : t.gie = s.gie := by
  cases h
  case atom => simp at hmpc
  all_goals simp [putComplete, State.initialised]

/-- The handlers and the environment leave `mphase` (R205, R214, R215). -/
theorem ExecStep.mphase_of_ne_evMstep {i : Instr} {s t : State} (h : ExecStep i s t) (hev : i.isEvent = true)
    (hne : i ≠ .evMstep) : t.mphase = s.mphase := by
  cases h
  case txready | rxarrive | rxisrDrop | txisrSend | txisrOff => rfl
  case rxisrPush => simp
  all_goals exact absurd (runsCommand.of_isEvent ‹_› hev).1 hne

theorem State.mainEnabled_of_command {s : State} {c : Instr} (h : s.command = some c) : s.mainEnabled = true := by
  obtain ⟨w, hw, -⟩ := Option.bind_eq_some_iff.1 h
  exact State.mainEnabled_iff.2 (List.getElem?_eq_some_iff.1 hw).1

/-- A main step on a PUT answers what the PUT answers. -/
theorem evMstep_put_next {s t : State} {b : Byte} (hc : s.command = some (.put b)) (h : exec .evMstep s = .next t) :
    execPut b s = .next t :=
  (exec_evMstep_of_command hc rfl).symm.trans h

/-- A PUT that finds the FIFO empty finds room (R128). -/
theorem State.Inv.hasRoom_of_empty {s t : State} {b : Byte} (hinv : s.Inv) (h : execPut b s = .next t)
    (hphase : s.mphase = .zero) (hempty : s.contents .tx = []) : s.tx.hasRoom (s.params.size .tx) := by
  obtain ⟨-, ok, g, hpush, -⟩ | ⟨hone, -⟩ := put_next h
  · have hn := isFifoSize_size s.params .tx
    rw [Fifo.hasRoom_iff_of_tryPush hpush, hinv.txValid.tryPush_eq_true_iff hn hpush]
    obtain ⟨e, he⟩ := hn
    have hempty : s.tx.contents (s.params.size .tx) = [] := hempty
    have := Nat.one_lt_two_pow (Nat.succ_ne_zero e)
    simp only [hempty, List.length_nil]
    omega
  · cases hphase.symm.trans hone

section Main

variable {ev : Nat → Instr} {r : Nat → State} (hrun : IsRun ev r) (hfair : Fair ev r)

include hrun

theorem IsRun.command_of_mpc_eq {n m : Nat} (h : (r m).mpc = (r n).mpc) : (r m).command = (r n).command :=
  State.command_congr ((hrun.prog_eq m).trans (hrun.prog_eq n).symm) h

include hfair

/-- A program has no loop (R35), so `mpc` stands still in the end, and `gie` with it: at 1, since it is 1 again and again. -/
theorem IsRun.settles (hinv : ∀ n, (r n).Inv) :
    ∃ start, ∀ n, start ≤ n → (r n).mpc = (r start).mpc ∧ (r n).gie = true := by
  obtain ⟨start, hmpc⟩ := exists_forall_ge_eq_of_monotone (bound := (r 0).prog.length) hrun.mpc_monotone
    fun n => hrun.prog_eq n ▸ (hinv n).mpcLe
  have hgie : ∀ n, start ≤ n → (r n).gie = (r start).gie := by
    refine Nat.le_induction rfl fun n hn ih => ?_
    exact ((hrun.execStep n).gie_of_mpc_eq ((hmpc (n + 1) (by omega)).trans (hmpc n hn).symm)).trans ih
  obtain ⟨m, hm, hon⟩ := hfair.gieAgain start
  exact ⟨start, fun n hn => ⟨hmpc n hn, (hgie n hn).trans ((hgie m hm).symm.trans hon)⟩⟩

/-- A command at which `mpc` stands still is stepped again and again (R104). -/
theorem IsRun.evMstep_again {n : Nat} {c : Instr} (hc : (r n).command = some c)
    (hstill : ∀ m, n ≤ m → (r m).mpc = (r n).mpc) {k : Nat} (hk : n ≤ k) : ∃ m, k ≤ m ∧ ev m = .evMstep :=
  hfair.main k fun m hm => State.mainEnabled_of_command ((hrun.command_of_mpc_eq (hstill m (by omega))).trans hc)

/-- A PUT between its phases completes (R142): no other agent writes `mphase`, and the main agent's next step is the kick. -/
theorem IsRun.put_phaseOne_moves {n : Nat} {b : Byte} (hc : (r n).command = some (.put b)) (hphase : (r n).mphase = .one) :
    ∃ m, n ≤ m ∧ (r m).mpc ≠ (r n).mpc := by
  by_contra! hstill
  have hkick : ∀ m, n ≤ m → (r m).mphase = .one → ev m ≠ .evMstep := by
    intro m hm hone hev
    have hput := evMstep_put_next ((hrun.command_of_mpc_eq (hstill m hm)).trans hc) (hrun.exec_of_eq hev)
    obtain ⟨hzero, -⟩ | ⟨-, hdone⟩ := put_next hput
    · cases hzero.symm.trans hone
    · have hmpc : (r (m + 1)).mpc = (r m).mpc + 1 := by simp [hdone, putComplete]
      have := hstill m hm
      have := hstill (m + 1) (by omega)
      omega
  have hone : ∀ m, n ≤ m → (r m).mphase = .one := by
    refine Nat.le_induction hphase fun m hm ih => ?_
    exact ((hrun.execStep m).mphase_of_ne_evMstep (hrun.isEvent m) (hkick m hm ih)).trans ih
  obtain ⟨m, hm, hev⟩ := hrun.evMstep_again hfair hc hstill le_rfl
  exact hkick m hm (hone m hm) hev

/-- R217's first half: once `mpc` stands still no byte awaits its kick, so R212 gives every queued byte a live source. -/
theorem IsRun.sends_stream_of_fair (hinv : ∀ n, (r n).Inv) (hkick : ∀ n, (r n).kickInv)
    (hkeeps : ∀ n, ¬ eventDiscardsTx (ev n) (r n)) : ∃ m, (r 0).txStream <+: (r m).wireOut := by
  obtain ⟨start, hsettled⟩ := hrun.settles hfair hinv
  refine hrun.sends_stream hfair.txready hfair.txisr hinv hkeeps (fun n hn => (hsettled n hn).2) fun n hn => ?_
  rcases htxie : (r n).txie with _ | _
  · obtain hempty | ⟨hone, b, hc⟩ := hkick n htxie
    · exact .inr (State.txStream_of_empty hempty ▸ hrun.txStream_prefix hinv hkeeps (Nat.zero_le n))
    · obtain ⟨m, hm, hmoved⟩ := hrun.put_phaseOne_moves hfair hc hone
      exact absurd ((hsettled m (by omega)).1.trans (hsettled n hn).1.symm) hmoved
  · exact .inl rfl

/-- R217's second half: a PUT that never queued its byte would see the FIFO run empty, and then find room. -/
theorem IsRun.put_moves (hinv : ∀ n, (r n).Inv) (hkick : ∀ n, (r n).kickInv) {b : Byte}
    (hc : (r 0).command = some (.put b)) : ∃ m, (r m).mpc ≠ (r 0).mpc := by
  by_contra! hstill
  have hc : ∀ n, (r n).command = some (.put b) := fun n => (hrun.command_of_mpc_eq (hstill n)).trans hc
  have hzero : ∀ n, (r n).mphase = .zero := by
    intro n
    cases hphase : (r n).mphase with
    | zero => rfl
    | one =>
      obtain ⟨m, -, hmoved⟩ := hrun.put_phaseOne_moves hfair (hc n) hphase
      exact absurd ((hstill m).trans (hstill n).symm) hmoved
  have hfull : ∀ n, ev n = .evMstep → ¬ (r n).tx.hasRoom ((r n).params.size .tx) := by
    intro n hev hroom
    have hone := (evMstep_put_mphase_iff (hrun.exec_of_eq hev) (hc n) (hzero n)).2 hroom
    cases (hzero (n + 1)).symm.trans hone
  have hkeeps : ∀ n, ¬ eventDiscardsTx (ev n) (r n) := by
    rintro n ⟨-, c, hc', hdiscards⟩
    obtain rfl := Option.some.inj ((hc n).symm.trans hc')
    cases hdiscards
  have hstream : ∀ n, (r n).txStream = (r 0).txStream := by
    intro n
    induction n with
    | zero => rfl
    | succ n ih =>
      obtain ⟨-, hkept, -⟩ := noQueuedByteLostOrRepeated _ _ _ (hinv n) (hrun.isEvent n) (hrun n).2 (hkeeps n)
      exact (hkept fun _ hq => hfull n hq.1 hq.2.1).trans ih
  obtain ⟨k, hsent⟩ := hrun.sends_stream_of_fair hfair hinv hkick hkeeps
  obtain ⟨m, hm, hev⟩ := hrun.evMstep_again hfair (hc 0) (fun n _ => hstill n) (Nat.zero_le k)
  have hempty : (r m).contents .tx = [] := by
    have hall : (r m).txStream <+: (r m).wireOut := hstream m ▸ hsent.trans (hrun.wireOut_prefix hm)
    simpa [State.txStream] using hall.length_le
  exact hfull m hev ((hinv m).hasRoom_of_empty (evMstep_put_next (hc m) (hrun.exec_of_eq hev)) (hzero m) hempty)

end Main

/-- `mpc` moves by one command at a time, so where it has moved it has been one further (R35). -/
theorem IsRun.exists_mpc_succ {ev : Nat → Instr} {r : Nat → State} (hrun : IsRun ev r)
    (hmoves : ∃ m, (r m).mpc ≠ (r 0).mpc) : ∃ m, (r m).mpc = (r 0).mpc + 1 := by
  by_contra! hnever
  have hstill : ∀ m, (r m).mpc = (r 0).mpc := by
    intro m
    induction m with
    | zero => rfl
    | succ m ih =>
      obtain hmpc | ⟨hmpc, -⟩ := (hrun.execStep m).mpc_cases (hrun.isEvent m)
      · exact hmpc.trans ih
      · exact absurd (ih ▸ hmpc) (hnever (m + 1))
  obtain ⟨m, hm⟩ := hmoves
  exact hm (hstill m)

/-- Settles O55: the two halves of R217. -/
theorem fairRunSendsQueuedAndCompletesPut : Obligations.FairRunSendsQueuedAndCompletesPut := by
  intro ev r hrun hfair hinv hkick hprog
  have hinv := hrun.inv hinv
  have hkick := hrun.kickInv hkick hprog
  exact ⟨hrun.sends_stream_of_fair hfair hinv hkick, fun b hc =>
    hrun.exists_mpc_succ (hrun.put_moves hfair hinv hkick hc)⟩

end Sys2Proof.Machine
end

section
/-! Where a run stands still (70_reset_and_hazards.md R243, R251): a PUT that waits with interrupts off, and the end of a run. -/

namespace Sys2Proof.Machine

/-! ## The wait of PUT -/

/-- The handlers and the environment leave the main agent's registers (R205, R214, R215). -/
theorem ExecStep.sameMain_of_ne_evMstep {i : Instr} {s t : State} (h : ExecStep i s t) (hev : i.isEvent = true)
    (hne : i ≠ .evMstep) : sameMain s t := by
  cases h
  case txready | rxarrive | rxisrPush | rxisrDrop | txisrSend | txisrOff => simp [sameMain]
  all_goals exact absurd (runsCommand.of_isEvent ‹_› hev).1 hne

/-- The receive handler and the environment leave the TX FIFO (R36). -/
theorem ExecStep.tx_of_ne_evMstep_evTxisr {i : Instr} {s t : State} (h : ExecStep i s t) (hev : i.isEvent = true)
    (hne : i ≠ .evMstep) (hne' : i ≠ .evTxisr) : t.tx = s.tx := by
  cases h
  case txready | rxarrive | rxisrDrop => rfl
  case rxisrPush => simp
  case txisrSend hi _ _ | txisrOff hi => exact absurd hi hne'
  all_goals exact absurd (runsCommand.of_isEvent ‹_› hev).1 hne

/-- Settles O41: the main agent's step is the attempt in vain; the one other agent that writes TX is off while `gie = 0`. -/
theorem putHangsWithInterruptsOff : Obligations.PutHangsWithInterruptsOff := by
  intro s b hd tl hgie hc hphase hh ht hfull
  have hwait : exec .evMstep s = .next s :=
    (exec_evMstep_of_command hc rfl).trans (exec_put_of_full hphase (Fifo.tryPush_of_full hh ht hfull b))
  refine ⟨hwait, fun i t hev h => ?_⟩
  by_cases hi : i = .evMstep
  · obtain rfl : t = s := by simpa [hi, hwait] using h.symm
    exact ⟨hgie, hc, hphase, rfl, rfl, rfl, rfl⟩
  · have hne : i ≠ .evTxisr := by
      rintro rfl
      exact absurd ((evTxisr_next h).1.symm.trans hgie) nofun
    have hstep := exec_next h
    obtain ⟨hparams, hprog, -⟩ := hstep.sameRun
    obtain ⟨-, hmpc, hmphase, -, hmres⟩ := hstep.sameMain_of_ne_evMstep hev hi
    exact ⟨(hstep.gie_of_mpc_eq hmpc).trans hgie, (State.command_congr hprog hmpc).trans hc, hmphase.trans hphase,
      hstep.tx_of_ne_evMstep_evTxisr hev hi hne, hparams, hmpc, hmres⟩

/-! ## The end of a run -/

/-- Settles O56: past the program's end the fetch finds nothing, and a handler that is not enabled is refused by its guard. -/
theorem endedRunHasNoStepLeft : Obligations.EndedRunHasNoStepLeft := by
  rintro s ⟨hend, hrx, htx⟩
  exact ⟨exec_evMstep_refused_iff.2 hend.ge, if_neg (by simp [hrx]), if_neg (by simp [htx])⟩

end Sys2Proof.Machine
end
